-- ==== Sys2Proof/Word.lean ====
section
/-! DEFINITION. The word types of the block (00_scope.md R9, R11). All of them are unsigned; bit 0 is the least significant bit. -/

namespace Sys2Proof

/-- Half a byte, the unit of a nibble round (R15). -/
abbrev Nibble := BitVec 4

/-- The unit of input, `DATA_WIDTH` = 8 bits (R9). -/
abbrev Byte := BitVec 8

/-- A checksum, `CRC_WIDTH` = `ROM_WIDTH` = 16 bits (R9). -/
abbrev CrcWord := BitVec 16

/-- A command word, 10 bits (30_encoding.md R60). -/
abbrev CmdWord := BitVec 10

end Sys2Proof
end

