-- ==== Sys2Proof/Syntax.lean ====
section
/-! DEFINITION. The commands of the block (30_encoding.md R61), one constructor for each row of spec/opcode_table.json. -/

namespace Sys2Proof

/-- A decoded command. NOP and CLEAR carry no operand: every value of their data bits is the same command (R62). -/
inductive Instr where
  /-- NOP, op 0b00 (R89). -/
  | nop
  /-- BYTE b, op 0b01: feed the byte `b` (R63, R91). -/
  | byte (b : Byte)
  /-- CLEAR, op 0b10: start a new message (R90). -/
  | clear
  /-- A reserved word, op 0b11, all ten bits kept because the fault records them (R64, R132). -/
  | reserved (w : CmdWord)
  deriving DecidableEq, Repr

end Sys2Proof
end

