-- ==== Sys2Proof/WellFormed.lean ====
section
/-! DEFINITION. Which terms of `Instr` stand for a command word: the check that the types of the operands leave over. -/

namespace Sys2Proof

/-- Only a word with op 0b11 is a reserved command (R64); every other operand is in range by its type (R62, R63). -/
def Instr.wellFormed : Instr → Bool
  | .nop => true
  | .byte _ => true
  | .clear => true
  | .reserved w => w &&& 0x300#10 == 0x300#10

end Sys2Proof
end

