-- ==== Sys2Proof/Decode.lean ====
section
/-! DEFINITION. Decoding and encoding of command words (30_encoding.md R60 to R64; opcode_table.json). -/

namespace Sys2Proof

/-- The field `op` of a command word, bits 9:8 (R60). -/
def opField (w : CmdWord) : BitVec 2 := w.extractLsb' 8 2

/-- The field `data` of a command word, bits 7:0 (R60). -/
def dataField (w : CmdWord) : Byte := w.extractLsb' 0 8

/-- The mask of every row of the opcode map (R61). -/
def opMask : CmdWord := 0x300

/-- Column `match` of the opcode map (R61), by constructor. -/
def opMatch : Instr → CmdWord
  | .nop => 0x000
  | .byte _ => 0x100
  | .clear => 0x200
  | .reserved _ => 0x300

/-- Decode a command word by the opcode map of R61. Total: the last row takes the words that the first three leave, those
with op 0b11 (R61, R64). The data bits of NOP and CLEAR are ignored (R62). -/
def decode (w : CmdWord) : Instr :=
  if w &&& opMask = 0x000 then .nop
  else if w &&& opMask = 0x100 then .byte (dataField w)
  else if w &&& opMask = 0x200 then .clear
  else .reserved w

/-- Why a number is no command. Raised by `decodeNumber` alone; safe, since the port `cmd_word` is 10 bits wide (R26). -/
inductive DecodeError where
  /-- A bit above bit 9 is set: no command word has one (R60). -/
  | widerThanTenBits (n : Nat)
  deriving DecidableEq, Repr

/-- Decode a number of any size: a command word where it has at most 10 bits (R60), else refused by name. -/
def decodeNumber (n : Nat) : Except DecodeError Instr :=
  if n < 1024 then .ok (decode (BitVec.ofNat 10 n)) else .error (.widerThanTenBits n)

/-- The word of a command: `0x100 | b` for BYTE (R63), data 0 for NOP and CLEAR (R62), the word itself for a reserved one. -/
def encode : Instr → CmdWord
  | .nop => 0x000
  | .byte b => 0x100 ||| b.setWidth 10
  | .clear => 0x200
  | .reserved w => w

/-- The command the decoder reads from the bits `w` of an opcode-table row of `nbits` bits. A command has one length (R60), so
`nbits` does not choose among decodings. -/
def decodeTableWord (_nbits w : Nat) : Option Instr :=
  match decodeNumber w with
  | .ok i => some i
  | .error _ => none

end Sys2Proof
end

