-- ==== Sys2Proof/Config.lean ====
section
/-! DEFINITION. What one implementation fixes and what the spec leaves free (00_scope.md R10; 93_implementation_defined.md).
Each opaque constant has no body, so no proof can rest on a value of it. -/

namespace Sys2Proof.Config

/-- `BYTE_LATENCY` less one (A2). -/
opaque byteLatencyLessOne : Nat

/-- `CLEAR_LATENCY` less one (A2). -/
opaque clearLatencyLessOne : Nat

/-- `BYTE_LATENCY`, an integer of at least 1, in clock cycles (R10). -/
def byteLatency : Nat := byteLatencyLessOne + 1

/-- `CLEAR_LATENCY`, an integer of at least 1, in clock cycles (R10). -/
def clearLatency : Nat := clearLatencyLessOne + 1

/-- `BUSY_OUTPUT`: the `n`-th free value, as `crc_out` shows it while the block is busy (R156; A4). -/
opaque busyOutput : Nat → CrcWord

/-- What `crc` holds before the first reset (R28), at the `n`-th draw (A4). -/
opaque unsetCrc : Nat → CrcWord

/-- What `busy` is before the first reset (R28), at the `n`-th draw (A4). -/
opaque unsetBusy : Nat → Bool

/-- What `phase` is before the first reset (R28), as a number of edges left, at the `n`-th draw (A4). -/
opaque unsetPhase : Nat → Nat

end Sys2Proof.Config
end

