-- ==== Sys2Proof/Machine/State.lean ====
section
/-! DEFINITION. The state of the machine (10_state.md) and of the one host that drives it (30_encoding.md R66, R67;
48_host_usage.md), as plain data, and the state after reset (R28, R150). -/

namespace Sys2Proof.Machine

/-- The internal sequencer `phase` (R27), held as the rising edges left until `busy` returns to 0 (A3). -/
inductive Phase where
  | idle
  | working (edgesLeft : Nat)
  deriving DecidableEq, Repr

/-- What `Fault(NotReset)` records: the command word, or `SAMPLE` (60_exceptions.md R131). -/
inductive Recorded where
  | command (w : CmdWord)
  | sample
  deriving DecidableEq, Repr

/-- The two faults of the block (R130 to R133). A fault ends the run: no step follows it, a reset included (R137). -/
inductive Fault where
  /-- Raised by every command accepted, and by every sample of `crc_out`, before the first reset (R131). Safe: the spec gives
  the power-on state no value. -/
  | notReset (what : Recorded)
  /-- Raised by the reserved command after reset (R132). Safe: what hardware does is implementation-defined (R64). -/
  | reservedOp (w : CmdWord)
  deriving DecidableEq, Repr

/-- Why the model gives no outcome. -/
inductive Refusal where
  /-- Raised by an arm of `exec` whose command has no meaning yet. Safe. No arm raises it in this model. -/
  | notModelled (mnemonic : String)
  deriving DecidableEq, Repr

/-- How a patch brings `crc` to its initial value: "RESET (or CLEAR)" (48_host_usage.md R116). -/
inductive MessageStart where
  | reset
  | clear
  deriving DecidableEq, Repr

/-- The file operation of a patch that fails, given from outside the machine (R120, R121; A10). -/
inductive IoPoint where
  /-- File missing or unreadable: the image before step 1 stays. -/
  | openFile
  /-- The selector's write fails: the image before step 1 stays. -/
  | writeSelector
  /-- The payload's read fails: the image after step 1 stays. -/
  | readPayload
  /-- The checksum field's write fails: the image after step 1 stays. -/
  | writeField
  /-- A failure after step 4: the image after step 4 stays. -/
  | closeFile
  deriving DecidableEq, Repr

/-- How the host's procedure ended (R121, R141). -/
inductive HostOutcome where
  | ok
  | ioError
  | usageError
  deriving DecidableEq, Repr

/-- One item of the host's program (R67): a command to issue, or a host action (R66), or a step of the patch procedure (R116). -/
inductive HostAction where
  /-- Issue a command word: offer it and hold it until it is accepted (R67, R155). -/
  | issue (w : CmdWord)
  /-- Drive the three input ports for one rising edge, and hold nothing (R26, R135, R155). -/
  | drive (rst valid : Bool) (w : CmdWord)
  /-- WAIT: hold the host until `cmd_ready` = 1 (R66). -/
  | wait
  /-- SAMPLE: read `crc_out` after an implicit WAIT (R66). -/
  | sample
  /-- A raw read of `crc_out`, which does not wait (R156). -/
  | readRaw
  /-- RESET: drive `rst` = 1 for one rising edge (R66, R150). -/
  | reset
  /-- Loss of power (R139). -/
  | losePower
  /-- MemWrite(a, n, v) on the profile-file image (R13, R110). -/
  | memWrite (a n v : Nat)
  /-- An invocation of the patcher with a wrong argument count (R121). -/
  | usageError
  /-- PATCH, its start: the check of the file's length (R115, R116). -/
  | patch (start : MessageStart) (failure : Option IoPoint)
  /-- PATCH, step 1: the write of the selector. -/
  | patchSelector (start : MessageStart) (failure : Option IoPoint)
  /-- PATCH, step 2: the payload is read, and its bytes are put before the block (step 3). -/
  | patchPayload (start : MessageStart) (failure : Option IoPoint)
  /-- PATCH, end of step 3: SAMPLE crc_out -> c. -/
  | patchSample (failure : Option IoPoint)
  /-- PATCH, step 4: the write of the checksum field. -/
  | patchField (c : CrcWord) (failure : Option IoPoint)
  deriving DecidableEq, Repr

/-- Bytes by address, in one canonical form (`Memory.wf`): addresses strictly rising, no byte listed that an unlisted address
reads as. -/
abbrev Memory := List Host.Cell

/-- The profile-file image F (R110): its length L, and its bytes at the offsets below L. -/
structure ProfileFile where
  length : Nat
  cells : Memory
  deriving DecidableEq, Repr

/-- The block, the levels of its input ports, and the host. -/
structure State where
  /-- Whether the first reset of the run has happened; false is the unreset state (R28, R131). -/
  resetSeen : Bool
  /-- The accumulator (R20). -/
  crc : CrcWord
  /-- `busy`; `cmd_ready` is its negation (R27). -/
  busy : Bool
  /-- The sequencer (R27). -/
  phase : Phase
  /-- Port `rst` as the host drove it at the latest rising edge (R26). -/
  rst : Bool
  /-- Port `cmd_valid` as the host drove it at the latest rising edge (R26). -/
  cmdValid : Bool
  /-- Port `cmd_word` as the host drove it at the latest rising edge (R26). -/
  cmdWord : CmdWord
  /-- What is left of the host's program, in issue order (R67). -/
  plan : List HostAction
  /-- The values of the SAMPLEs so far, the latest first (R66, R159). -/
  samples : List CrcWord
  /-- The values of the raw reads of `crc_out` so far, the latest first (R156). -/
  rawReads : List CrcWord
  /-- The profile-file image (R110). -/
  file : ProfileFile
  /-- How the host's latest file procedure ended, none while none has ended (R121). -/
  outcome : Option HostOutcome
  /-- The model's own: how many free values have been taken (A4). -/
  draws : Nat
  deriving DecidableEq, Repr

/-- The machine right after reset (R28, R150): `crc` 0x0000, `busy` 0, `phase` idle. The ports, the host and its file hold what
A7, A8 and A9 say; the spec gives them no reset value. -/
def State.reset : State where
  resetSeen := true
  crc := 0x0000
  busy := false
  phase := .idle
  rst := false
  cmdValid := false
  cmdWord := 0x000
  plan := []
  samples := []
  rawReads := []
  file := { length := 0, cells := [] }
  outcome := none
  draws := 0

end Sys2Proof.Machine
end

