-- ==== Sys2Proof/Machine/Memory.lean ====
section
/-! DEFINITION. The profile-file image (48_host_usage.md R110 to R114): bytes by offset, MemRead and MemWrite, the payload. -/

namespace Sys2Proof.Machine

/-- What an offset that is not listed reads as (A9). -/
def unlistedByte : Byte := 0x00

/-- The canonical form from offset `lo` on: rising offsets, no listed byte equal to the unlisted one. -/
def wfFrom : Nat → Memory → Bool
  | _, [] => true
  | lo, (a, v) :: m => decide (lo ≤ a) && v != unlistedByte && wfFrom (a + 1) m

/-- The canonical form of a memory: equal memories are equal lists. -/
def Memory.wf (m : Memory) : Bool := wfFrom 0 m

/-- The byte at offset `a`. -/
def readByte : Memory → Nat → Byte
  | [], _ => unlistedByte
  | (b, v) :: m, a => if a = b then v else readByte m a

/-- Put `v` at offset `a` in front of `m`, unless `v` is what an unlisted offset reads as. -/
def consByte (a : Nat) (v : Byte) (m : Memory) : Memory := if v = unlistedByte then m else (a, v) :: m

/-- Write `v` at offset `a`; the canonical form is kept. -/
def writeByte : Memory → Nat → Byte → Memory
  | [], a, v => consByte a v []
  | (b, u) :: m, a, v =>
    if a < b then consByte a v ((b, u) :: m)
    else if a = b then consByte a v m
    else (b, u) :: writeByte m a v

/-- MemRead(a, n): the `n` bytes from offset `a` as a little-endian number (R45, R110). It reads the cells alone:
where `a + n` passes the end of the file, R110 gives no bytes, and the bytes past the end read as 0x00. DESIGN CHOICE (A10). -/
def memRead (m : Memory) : Nat → Nat → Nat
  | _, 0 => 0
  | a, n + 1 => (readByte m a).toNat + 256 * memRead m (a + 1) n

/-- MemWrite(a, n, v): `F[a+k] <- v[8k+7:8k]` for k from 0 to n-1 (R110). -/
def memWrite (m : Memory) : Nat → Nat → Nat → Memory
  | _, 0, _ => m
  | a, n + 1, v => memWrite (writeByte m a (BitVec.ofNat 8 v)) (a + 1) n (v / 256)

/-- F[a] (R110). -/
def fileByte (f : ProfileFile) (a : Nat) : Byte := readByte f.cells a

/-- MemWrite within the file: none where an offset of it does not exist (R110, R115; A10). A write of no bytes at an offset past the
end of the file, `n = 0` and `a > L`, gives none too, though no offset of it is missing: DESIGN CHOICE (A10). -/
def fileWrite (f : ProfileFile) (a n v : Nat) : Option ProfileFile :=
  if a + n ≤ f.length then some { f with cells := memWrite f.cells a n v } else none

/-- A file is well formed: canonical bytes, none listed outside F[0 .. L-1] (R110). -/
def ProfileFile.wf (f : ProfileFile) : Bool := Memory.wf f.cells && f.cells.all fun c => decide (c.1 < f.length)

/-- HEADER_SIZE (R114). -/
def headerSize : Nat := 128
/-- SELECTOR_PAYLOAD_OFFSET (R113, R114). -/
def selectorPayloadOffset : Nat := 22505
/-- SELECTOR_OFFSET (R113, R114), 22633. -/
def selectorOffset : Nat := headerSize + selectorPayloadOffset
/-- CHECKSUM_OFFSET (R112, R114). -/
def checksumOffset : Nat := 32
/-- SELECTOR_VALUE, the HDMI input (R113, R114). -/
def selectorValue : Nat := 0x00
/-- MIN_FILE_LENGTH (R114, R115), 22634. -/
def minFileLength : Nat := selectorOffset + 1

/-- The payload F[128 .. L-1] (R111, R116 step 2). -/
def payload (f : ProfileFile) : List Byte := (List.range (f.length - headerSize)).map fun k => fileByte f (headerSize + k)

end Sys2Proof.Machine
end

