-- ==== Sys2Proof/Machine/Operands.lean ====
section
/-! DEFINITION. The operand forms: the nibbles of an input byte and of the accumulator (00_scope.md R11; 30_encoding.md R63). -/

namespace Sys2Proof.Machine

/-- `b[7:4]`, the nibble of the first round (R43, R63). -/
def highNibble (b : Byte) : Nibble := b.extractLsb' 4 4

/-- `b[3:0]`, the nibble of the second round (R43, R63). -/
def lowNibble (b : Byte) : Nibble := b.extractLsb' 0 4

/-- `c[15:12]`, with which an entering nibble is combined (R11, R43). -/
def topNibble (c : CrcWord) : Nibble := c.extractLsb' 12 4

end Sys2Proof.Machine
end

