-- ==== Sys2Proof/Machine/Ops.lean ====
section
/-! DEFINITION. The named operations: the checksum's arithmetic (40_crc_commands.md R80 to R88), the writes of each piece of
state, raising a fault (R130), reset (R150), the passing of a cycle (R27), loss of power (R139). -/

namespace Sys2Proof.Machine

/-! ## Arithmetic -/

/-- The ROM (R22). It is fixed at manufacture and nothing writes it (R24, R55). -/
def rom : Vector CrcWord 16 :=
  #v[0x0000, 0x1021, 0x2042, 0x3063, 0x4084, 0x50A5, 0x60C6, 0x70E7,
     0x8108, 0x9129, 0xA14A, 0xB16B, 0xC18C, 0xD1AD, 0xE1CE, 0xF1EF]

/-- `ROM[idx]` (R87): cannot fail, for every index is populated (R40). -/
def romLookup (idx : Nibble) : CrcWord := rom.get idx.toFin

/-- NR(c, n), the nibble round (R81). The masks of R81 are the widths of the types (R83). -/
def nibbleRound (c : CrcWord) (n : Nibble) : CrcWord := romLookup (topNibble c ^^^ n) ^^^ (c <<< 4)

/-- BU(c, b), the byte update (R82): the high nibble's round, then the low nibble's. -/
def byteUpdate (c : CrcWord) (b : Byte) : CrcWord := nibbleRound (nibbleRound c (highNibble b)) (lowNibble b)

/-- CRC_INIT (R9, R80). -/
def crcInit : CrcWord := 0x0000

/-- CRC(m), the message checksum (R84): BU folded over the bytes in sequence order (R42), from CRC_INIT. -/
def messageCrc (m : List Byte) : CrcWord := m.foldl byteUpdate crcInit

/-! ## Writes of one piece of state each -/

def State.writeCrc (s : State) (c : CrcWord) : State := { s with crc := c }
def State.setSequencer (s : State) (b : Bool) (p : Phase) : State := { s with busy := b, phase := p }
def State.setResetSeen (s : State) (b : Bool) : State := { s with resetSeen := b }
/-- The host drives the three input ports (R26). -/
def State.drivePins (s : State) (r v : Bool) (w : CmdWord) : State := { s with rst := r, cmdValid := v, cmdWord := w }
def State.setPlan (s : State) (p : List HostAction) : State := { s with plan := p }
def State.recordSample (s : State) (c : CrcWord) : State := { s with samples := c :: s.samples }
def State.recordRawRead (s : State) (c : CrcWord) : State := { s with rawReads := c :: s.rawReads }
def State.setFile (s : State) (f : ProfileFile) : State := { s with file := f }
def State.setOutcome (s : State) (o : Option HostOutcome) : State := { s with outcome := o }
def State.advanceDraws (s : State) : State := { s with draws := s.draws + 1 }

/-! ## Faults -/

/-- `raise Fault(reason)` (R130): the run ends with the record of the reason. Nothing is saved and control goes nowhere, for the
block has no traps (R136), and there is no return (R137). -/
def raiseFault (r : Fault) : Host.Outcome State Fault Refusal := .fault r

/-- What every command does before its own effect: before the first reset it raises NotReset, recording the word on the command
port (R131, R135 order 2). -/
def whenReset (s : State) (effect : Host.Outcome State Fault Refusal) : Host.Outcome State Fault Refusal :=
  if s.resetSeen then effect else raiseFault (.notReset (.command s.cmdWord))

/-! ## The sequencer, reset and power -/

/-- The block becomes busy for `n` cycles (R27). -/
def startBusy (s : State) (n : Nat) : State := s.setSequencer true (.working n)

/-- Reset (R150): also ends the unreset state (R151) and abandons a command in progress. -/
def applyReset (s : State) : State := ((s.writeCrc crcInit).setSequencer false .idle).setResetSeen true

/-- A sequencer state with `n` edges left. -/
def phaseOfCount : Nat → Phase
  | 0 => .idle
  | n + 1 => .working (n + 1)

/-- `crc`, `busy` and `phase` become unspecified (R28): free values (A4). -/
def unspecify (s : State) : State :=
  ((s.writeCrc (Config.unsetCrc s.draws)).setSequencer (Config.unsetBusy s.draws)
    (phaseOfCount (Config.unsetPhase s.draws))).advanceDraws

/-- A rising edge at which no reset happens and no command is accepted: one cycle of a busy time passes (R27). In the unreset
state the block's registers stay unspecified (R28; A6). -/
def tick (s : State) : State :=
  if s.resetSeen then
    if s.busy then
      match s.phase with
      | .working (n + 2) => s.setSequencer true (.working (n + 1))
      | _ => s.setSequencer false .idle
    else s
  else unspecify s

/-- Loss of power returns the block to the unreset state (R139). -/
def losePower (s : State) : State := (unspecify s).setResetSeen false

/-- The unreset state in which a model starts every run (R28): the state after reset, with the power lost. -/
def powerOn : State := losePower State.reset

end Sys2Proof.Machine
end

