-- ==== Sys2Proof/Machine/Flags.lean ====
section
/-! DEFINITION. The block has no flags (10_state.md R25; 40_crc_commands.md R83). This file holds what stands in their place: the
two output ports, computed from the state (R21, R27). -/

namespace Sys2Proof.Machine

/-- Port `cmd_ready` = not busy (R27). -/
def cmdReady (s : State) : Bool := !s.busy

/-- Port `crc_out`: `crc` while idle (R21), a free value while busy (R156). -/
def crcOut (s : State) : CrcWord := if cmdReady s then s.crc else Config.busyOutput s.draws

/-- A command is accepted at an edge with rst = 0, cmd_valid = 1 and cmd_ready = 1 (R26). Before the first reset `busy` is
unspecified (R28) and an offered command counts as accepted (R135 order 2). -/
def accepts (s : State) : Bool := !s.rst && s.cmdValid && (cmdReady s || !s.resetSeen)

end Sys2Proof.Machine
end

