-- ==== Sys2Proof/Machine/Commands.lean ====
section
/-! DEFINITION. The meaning of each command, as it is accepted from the command port (40_crc_commands.md R89 to R91;
60_exceptions.md R131, R132). -/

namespace Sys2Proof.Machine

/-- NOP (R89): nothing changes and `busy` is not set. -/
def execNop (s : State) : Host.Outcome State Fault Refusal := whenReset s (.next s)

/-- BYTE b (R91): `crc <- BU(crc, b)`, and `busy` for BYTE_LATENCY cycles. -/
def execByte (b : Byte) (s : State) : Host.Outcome State Fault Refusal :=
  whenReset s (.next (startBusy (s.writeCrc (byteUpdate s.crc b)) Config.byteLatency))

/-- CLEAR (R90): `crc <- 0x0000`, and `busy` for CLEAR_LATENCY cycles. -/
def execClear (s : State) : Host.Outcome State Fault Refusal :=
  whenReset s (.next (startBusy (s.writeCrc crcInit) Config.clearLatency))

/-- A reserved word (R64, R132): what hardware does is implementation-defined; a fault that records the word. -/
def execReserved (w : CmdWord) (s : State) : Host.Outcome State Fault Refusal := whenReset s (raiseFault (.reservedOp w))

end Sys2Proof.Machine
end

