-- ==== Sys2Proof/Machine/ClockEdge.lean ====
section
/-! DEFINITION. What the block does at one rising edge of `clk`, with its input ports as the state holds them (10_state.md R26;
60_exceptions.md R135; 70_reset_and_hazards.md R150, R155). -/

namespace Sys2Proof.Machine

/-- One rising edge, events resolved in the order of R135: reset; then an accepted command, whose meaning raises NotReset before
ReservedOp before its effect; else a cycle passes and a command offered while busy stays unaccepted (R155). -/
def clockEdge (s : State) : Host.Outcome State Fault Refusal :=
  if s.rst then .next (applyReset s)
  else if accepts s then exec (decode s.cmdWord) s
  else .next (tick s)

/-- A rising edge at which the host offers nothing: `rst` = 0, `cmd_valid` = 0 (R67). -/
def idleEdge (s : State) : Host.Outcome State Fault Refusal := clockEdge (s.drivePins false false s.cmdWord)

/-- `f` of the next state; a fault or a refusal as it is. -/
def andThen (o : Host.Outcome State Fault Refusal) (f : State → State) : Host.Outcome State Fault Refusal :=
  match o with
  | .next s => .next (f s)
  | .fault r => .fault r
  | .refused r => .refused r

end Sys2Proof.Machine
end

