-- ==== Sys2Proof/Machine/HostAgent.lean ====
section
/-! DEFINITION. The host's steps: the issue of a command (30_encoding.md R67), the host actions (R66), the raw drives and reads of the
ports (R26, R156), and the patch procedure (48_host_usage.md R115 to R123). `rest` is the program after the action at hand; an action
that holds leaves the program as it is (R155). -/

namespace Sys2Proof.Machine

/-- Issue a command: `cmd_valid` = 1 and `cmd_word` unchanged until the edge that accepts it (R155). -/
def hostIssue (w : CmdWord) (rest : List HostAction) (s : State) : Host.Outcome State Fault Refusal :=
  andThen (clockEdge (s.drivePins false true w)) fun t =>
    if accepts (s.drivePins false true w) then t.setPlan rest else t

/-- Drive the input ports for one edge; whether a command is accepted or not, the host goes on (R155). -/
def hostDrive (r v : Bool) (w : CmdWord) (rest : List HostAction) (s : State) : Host.Outcome State Fault Refusal :=
  andThen (clockEdge (s.drivePins r v w)) fun t => t.setPlan rest

/-- WAIT (R66): a cycle passes while `cmd_ready` = 0. -/
def hostWait (rest : List HostAction) (s : State) : Host.Outcome State Fault Refusal :=
  if cmdReady s then .next (s.setPlan rest) else idleEdge s

/-- Every sample of `crc_out` before the first reset raises NotReset (R131). -/
def whenSampled (s : State) (effect : Host.Outcome State Fault Refusal) : Host.Outcome State Fault Refusal :=
  if s.resetSeen then effect else raiseFault (.notReset .sample)

/-- Read `crc_out` after an implicit WAIT (R66); the host goes on with `next` of the value. A sample changes no state of the
block (R50). -/
def sampleThen (next : CrcWord → List HostAction) (s : State) : Host.Outcome State Fault Refusal :=
  whenSampled s (if cmdReady s then .next ((s.recordSample (crcOut s)).setPlan (next (crcOut s))) else idleEdge s)

/-- SAMPLE (R66). -/
def hostSample (rest : List HostAction) (s : State) : Host.Outcome State Fault Refusal := sampleThen (fun _ => rest) s

/-- A raw read of `crc_out` (R156): while busy it takes a free value. -/
def hostReadRaw (rest : List HostAction) (s : State) : Host.Outcome State Fault Refusal :=
  whenSampled s (.next
    ((if cmdReady s then s.recordRawRead (crcOut s) else (s.recordRawRead (crcOut s)).advanceDraws).setPlan rest))

/-- RESET (R66): `rst` = 1 for one rising edge. -/
def hostReset (rest : List HostAction) (s : State) : Host.Outcome State Fault Refusal := hostDrive true false s.cmdWord rest s

/-- Loss of power (R139). -/
def hostLosePower (rest : List HostAction) (s : State) : Host.Outcome State Fault Refusal := .next ((losePower s).setPlan rest)

/-- The host's procedure ends with the outcome `o` (R121), and the host goes on with `rest`. That it goes on after an IoError or a
usage error is a DESIGN CHOICE (A18). -/
def finishWith (o : HostOutcome) (rest : List HostAction) (s : State) : Host.Outcome State Fault Refusal :=
  .next ((s.setOutcome (some o)).setPlan rest)

/-- A write of the file, then `next`; where an offset does not exist nothing is written and the outcome is IoError (R115, R121). -/
def writeThen (a n v : Nat) (rest : List HostAction) (next : State → Host.Outcome State Fault Refusal) (s : State) :
    Host.Outcome State Fault Refusal :=
  match fileWrite s.file a n v with
  | some f => next (s.setFile f)
  | none => finishWith .ioError rest s

/-- MemWrite(a, n, v) as a host step of its own (R110). -/
def hostMemWrite (a n v : Nat) (rest : List HostAction) (s : State) : Host.Outcome State Fault Refusal :=
  writeThen a n v rest (fun t => .next (t.setPlan rest)) s

/-- A usage error, before any file access (R121). The host then goes on with the rest of its program, DESIGN CHOICE (A18). -/
def hostUsageError (rest : List HostAction) (s : State) : Host.Outcome State Fault Refusal := finishWith .usageError rest s

/-- PATCH, its start (R115): a file shorter than 22634 bytes ends it with no write. -/
def hostPatch (start : MessageStart) (failure : Option IoPoint) (rest : List HostAction) (s : State) :
    Host.Outcome State Fault Refusal :=
  if s.file.length < minFileLength ∨ failure = some .openFile then finishWith .ioError rest s
  else .next ((s.setOutcome none).setPlan (.patchSelector start failure :: rest))

/-- PATCH, step 1 (R116): MemWrite(22633, 1, 0x00). -/
def hostPatchSelector (start : MessageStart) (failure : Option IoPoint) (rest : List HostAction) (s : State) :
    Host.Outcome State Fault Refusal :=
  if failure = some .writeSelector then finishWith .ioError rest s
  else writeThen selectorOffset 1 selectorValue rest (fun t => .next (t.setPlan (.patchPayload start failure :: rest))) s

/-- The action that starts a message (R116, R152). -/
def startAction : MessageStart → HostAction
  | .reset => .reset
  | .clear => .issue (encode .clear)

/-- MSG m (R66): one BYTE for each byte, in order. -/
def msgActions (m : List Byte) : List HostAction := m.map fun b => .issue (encode (.byte b))

/-- PATCH, steps 2 and 3 (R116): the payload as it stands after step 1 (R117) is fed to the block. -/
def hostPatchPayload (start : MessageStart) (failure : Option IoPoint) (rest : List HostAction) (s : State) :
    Host.Outcome State Fault Refusal :=
  if failure = some .readPayload then finishWith .ioError rest s
  else .next (s.setPlan (startAction start :: (msgActions (payload s.file) ++ .patchSample failure :: rest)))

/-- PATCH, the end of step 3 (R116): SAMPLE crc_out -> c. -/
def hostPatchSample (failure : Option IoPoint) (rest : List HostAction) (s : State) : Host.Outcome State Fault Refusal :=
  sampleThen (fun c => .patchField c failure :: rest) s

/-- PATCH, step 4 (R116): MemWrite(32, 4, zext_32(c)). A failure after it leaves the image after step 4 (R120). -/
def hostPatchField (c : CrcWord) (failure : Option IoPoint) (rest : List HostAction) (s : State) :
    Host.Outcome State Fault Refusal :=
  if failure = some .writeField then finishWith .ioError rest s
  else writeThen checksumOffset 4 c.toNat rest
    (finishWith (if failure = some .closeFile then .ioError else .ok) rest) s

/-- One step of the host's program: the action at its head. With no action left the host offers nothing and the clock goes on. -/
def hostStep (s : State) : Host.Outcome State Fault Refusal :=
  match s.plan with
  | [] => idleEdge s
  | .issue w :: rest => hostIssue w rest s
  | .drive r v w :: rest => hostDrive r v w rest s
  | .wait :: rest => hostWait rest s
  | .sample :: rest => hostSample rest s
  | .readRaw :: rest => hostReadRaw rest s
  | .reset :: rest => hostReset rest s
  | .losePower :: rest => hostLosePower rest s
  | .memWrite a n v :: rest => hostMemWrite a n v rest s
  | .usageError :: rest => hostUsageError rest s
  | .patch start failure :: rest => hostPatch start failure rest s
  | .patchSelector start failure :: rest => hostPatchSelector start failure rest s
  | .patchPayload start failure :: rest => hostPatchPayload start failure rest s
  | .patchSample failure :: rest => hostPatchSample failure rest s
  | .patchField c failure :: rest => hostPatchField c failure rest s

/-- PATCH as one function on files (R115, R116): none is IoError with no write. The stepwise patch above is what runs; this is
what it comes to. -/
def patchFile (f : ProfileFile) : Option ProfileFile :=
  if f.length < minFileLength then none
  else
    let f1 : ProfileFile := { f with cells := memWrite f.cells selectorOffset 1 selectorValue }
    some { f1 with cells := memWrite f1.cells checksumOffset 4 (messageCrc (payload f1)).toNat }

end Sys2Proof.Machine
end

