-- ==== Sys2Proof/Machine/Step.lean ====
section
/-! DEFINITION. The step of the machine, and how a command is placed where the next step takes it from. -/

namespace Sys2Proof.Machine

/-- One step of the machine: one host step, with the rising edge of the block that it takes, if it takes one (R66, R67). -/
def step (s : State) : Host.Outcome State Fault Refusal := hostStep s

/-- `s` with the command word `w` first in the host's program and the block idle, so that the next step issues it and the block
accepts it (R67, R155). A number of more than 10 bits is no command word (R60) and is not placed. -/
def State.withFetchWord (s : State) (_nbits w : Nat) : State :=
  if w < 1024 then
    { s with busy := false, phase := .idle, plan := .issue (BitVec.ofNat 10 w) :: s.plan }
  else s

end Sys2Proof.Machine
end

