-- ==== Sys2Proof/Machine/Assembler.lean ====
section
/-! DEFINITION. The assembler (30_encoding.md R65 to R67): a line of text, the line it means, and the items of the host's program it
expands to. -/

namespace Sys2Proof.Machine

/-- A line of assembler: a command (R65), a pseudo-instruction, a host action or the directive .word (R66). Operands are numbers
and characters as written; `AsmLine.wellFormed` says which are in range. -/
inductive AsmLine where
  | nop
  | clear
  | byte (imm : Nat)
  | msg (imms : List Nat)
  | str (text : List Char)
  | crc16 (imms : List Nat)
  | wait
  | sample
  | reset
  | dotWord (imm : Nat)
  deriving DecidableEq, Repr

/-- Why a line is an assembly error. Raised by the assembler alone; safe, for no program comes of it. -/
inductive AsmError where
  /-- The first word of a line is no mnemonic of R65 or R66. -/
  | unknownMnemonic
  /-- An operand stands where none is allowed. -/
  | extraOperand
  /-- A number is not written as R65 says. -/
  | badNumber
  /-- The operand of STR is not a text in double quotes (R66). -/
  | badString
  /-- An immediate outside its range; it is not truncated (R65). -/
  | outOfRange (n : Nat)
  /-- A character of a STR outside 0x00 to 0x7F (R66). -/
  | notAscii (c : Char)
  deriving DecidableEq, Repr

/-- Every operand in range: bytes 0 to 255 (R65), words 0 to 1023 (A11), characters 0x00 to 0x7F (R66). -/
def AsmLine.wellFormed : AsmLine → Bool
  | .byte n => n < 256
  | .msg ns => ns.all (· < 256)
  | .str cs => cs.all (·.toNat < 128)
  | .crc16 ns => ns.all (· < 256)
  | .dotWord n => n < 1024
  | .nop | .clear | .wait | .sample | .reset => true

/-- `BYTE <imm8>` (R65). -/
def assembleByte (n : Nat) : Except AsmError HostAction :=
  if n < 256 then .ok (.issue (encode (.byte (BitVec.ofNat 8 n)))) else .error (.outOfRange n)

/-- One character of a STR (R66). -/
def assembleChar (c : Char) : Except AsmError HostAction :=
  if c.toNat < 128 then .ok (.issue (encode (.byte (BitVec.ofNat 8 c.toNat)))) else .error (.notAscii c)

/-- Assemble the items of a list in order; the first error ends it. -/
def assembleEach {α : Type} (f : α → Except AsmError HostAction) : List α → Except AsmError (List HostAction)
  | [] => .ok []
  | x :: xs =>
    match f x, assembleEach f xs with
    | .ok a, .ok as => .ok (a :: as)
    | .error e, _ => .error e
    | .ok _, .error e => .error e

/-- What a line expands to (R65, R66). R66 gives a form with no operands for MSG only; CRC16 with none is CLEAR alone, DESIGN CHOICE
(A11). -/
def assembleLine : AsmLine → Except AsmError (List HostAction)
  | .nop => .ok [.issue (encode .nop)]
  | .clear => .ok [.issue (encode .clear)]
  | .byte n => (assembleByte n).map fun a => [a]
  | .msg ns => assembleEach assembleByte ns
  | .str cs => assembleEach assembleChar cs
  | .crc16 ns => (assembleEach assembleByte ns).map fun as => .issue (encode .clear) :: as
  | .wait => .ok [.wait]
  | .sample => .ok [.sample]
  | .reset => .ok [.reset]
  | .dotWord n => if n < 1024 then .ok [.issue (BitVec.ofNat 10 n)] else .error (.outOfRange n)

/-- A program: its lines' expansions in issue order (R67). -/
def assemble : List AsmLine → Except AsmError (List HostAction)
  | [] => .ok []
  | l :: ls =>
    match assembleLine l, assemble ls with
    | .ok a, .ok as => .ok (a ++ as)
    | .error e, _ => .error e
    | .ok _, .error e => .error e

/-! ## Text -/

/-- The double quote. -/
def quoteChar : Char := Char.ofNat 34

/-- The characters that separate a mnemonic from its operands and are trimmed at the ends of a line or an operand: space, tab and
carriage return. DESIGN CHOICE (A11): the spec names none. -/
def isBlank (c : Char) : Bool := c == ' ' || c == '\t' || c == '\r'

/-- Take the comment off a line: from a semicolon to its end (R65); one inside a quoted text is a character of it (A11). -/
def dropComment : Bool → List Char → List Char
  | _, [] => []
  | inText, c :: cs =>
    if c == ';' && !inText then []
    else c :: dropComment (if c == quoteChar then !inText else inText) cs

def trimBlanks (cs : List Char) : List Char := ((cs.dropWhile isBlank).reverse.dropWhile isBlank).reverse

/-- The parts of a text between the characters equal to `sep`. -/
def splitAt (sep : Char) : List Char → List (List Char)
  | [] => [[]]
  | c :: cs =>
    if c == sep then [] :: splitAt sep cs
    else
      match splitAt sep cs with
      | [] => [[c]]
      | p :: ps => (c :: p) :: ps

/-- The value of a digit, sixteen where it is none. -/
def digitValue (c : Char) : Nat :=
  if '0' ≤ c ∧ c ≤ '9' then c.toNat - 48
  else if 'a' ≤ c ∧ c ≤ 'f' then c.toNat - 87
  else if 'A' ≤ c ∧ c ≤ 'F' then c.toNat - 55
  else 16

/-- The number written by digits of base `base` after the value `acc`. -/
def parseDigits (base : Nat) : Nat → List Char → Except AsmError Nat
  | acc, [] => .ok acc
  | acc, c :: cs =>
    if digitValue c < base then parseDigits base (base * acc + digitValue c) cs else .error .badNumber

/-- A number: decimal, `0x` hexadecimal or `0b` binary (R65). -/
def parseNumber (cs : List Char) : Except AsmError Nat :=
  match cs with
  | [] => .error .badNumber
  | '0' :: 'x' :: d :: ds => parseDigits 16 0 (d :: ds)
  | '0' :: 'b' :: d :: ds => parseDigits 2 0 (d :: ds)
  | d :: ds => parseDigits 10 0 (d :: ds)

def parseNumbers : List (List Char) → Except AsmError (List Nat)
  | [] => .ok []
  | p :: ps =>
    match parseNumber (trimBlanks p), parseNumbers ps with
    | .ok n, .ok ns => .ok (n :: ns)
    | .error e, _ => .error e
    | .ok _, .error e => .error e

/-- Operands between commas, none where the text is empty (R66: MSG with no operands; for CRC16 the same is the model's choice,
DESIGN CHOICE, A11). -/
def parseOperands (cs : List Char) : Except AsmError (List Nat) := if cs = [] then .ok [] else parseNumbers (splitAt ',' cs)

/-- A text in double quotes with no double quote inside it (R66). -/
def parseText (cs : List Char) : Except AsmError (List Char) :=
  match cs with
  | [] => .error .badString
  | q :: body =>
    if q == quoteChar && body.getLast? == some quoteChar && !body.dropLast.contains quoteChar then .ok body.dropLast
    else .error .badString

/-- A line with no operand. -/
def plainLine (l : AsmLine) (operands : List Char) : Except AsmError AsmLine :=
  if operands = [] then .ok l else .error .extraOperand

/-- The line of a mnemonic, in lower case, and its operands. -/
def parseMnemonic (word operands : List Char) : Except AsmError AsmLine :=
  if word = "nop".toList then plainLine .nop operands
  else if word = "clear".toList then plainLine .clear operands
  else if word = "byte".toList then (parseNumber operands).map .byte
  else if word = "msg".toList then (parseOperands operands).map .msg
  else if word = "str".toList then (parseText operands).map .str
  else if word = "crc16".toList then (parseOperands operands).map .crc16
  else if word = "wait".toList then plainLine .wait operands
  else if word = "sample".toList then plainLine .sample operands
  else if word = "reset".toList then plainLine .reset operands
  else if word = ".word".toList then (parseNumber operands).map .dotWord
  else .error .unknownMnemonic

/-- One line of text, none where it holds no command; the mnemonic is case-insensitive (R65). -/
def parseLine (cs : List Char) : Except AsmError (Option AsmLine) :=
  let t := trimBlanks (dropComment false cs)
  if t = [] then .ok none
  else
    let word := (t.takeWhile fun c => !isBlank c).map Char.toLower
    let operands := trimBlanks (t.dropWhile fun c => !isBlank c)
    (parseMnemonic word operands).map some

def parseLines : List (List Char) → Except AsmError (List AsmLine)
  | [] => .ok []
  | l :: ls =>
    match parseLine l, parseLines ls with
    | .ok (some a), .ok as => .ok (a :: as)
    | .ok none, .ok as => .ok as
    | .error e, _ => .error e
    | .ok _, .error e => .error e

/-- The host's program that an assembler text means: one command a line (R65, R67). -/
def assembleText (cs : List Char) : Except AsmError (List HostAction) :=
  match parseLines (splitAt '\n' cs) with
  | .ok ls => assemble ls
  | .error e => .error e

end Sys2Proof.Machine
end

