-- ==== Sys2Proof/Safety.lean ====
section
/-! DEFINITION. The terms in which the claims speak: invariants of the state, reaching a state, the bytes a program feeds, the
bit-serial form of the checksum, the end of a run. -/

namespace Sys2Proof.Machine

/-- The sequencer agrees with `busy` (R27), and the edges left are within the latencies (R155). -/
def sequencerOk (s : State) : Prop :=
  (s.busy = false ∧ s.phase = .idle) ∨
  (s.busy = true ∧ ∃ n, s.phase = .working n ∧ 1 ≤ n ∧ n ≤ max Config.byteLatency Config.clearLatency)

/-- The invariant of the machine: after the first reset the sequencer is in order (before it, R28 leaves it unspecified), and the
file's bytes are canonical. -/
def Inv (s : State) : Prop := (s.resetSeen = true → sequencerOk s) ∧ s.file.wf = true

/-- `k` steps from `s`, stopping at the first fault (R130). It is the run of the host's interface (Laws/Run.lean, core_run_eq). -/
def runFor : Nat → State → Host.Outcome State Fault Refusal
  | 0, s => .next s
  | k + 1, s =>
    match step s with
    | .next u => runFor k u
    | .fault r => .fault r
    | .refused r => .refused r

/-- `k` steps from `s` end in the next state `t`. -/
def reachesIn (k : Nat) (s t : State) : Prop := runFor k s = .next t

/-- Some number of steps from `s` ends in the next state `t`. -/
def reaches (s t : State) : Prop := ∃ k, reachesIn k s t

/-- The bytes that a stretch of program feeds to the block, where it is made of BYTEs, NOPs, idle cycles and WAITs only (R67, R92);
none otherwise. -/
def bytesFed : List HostAction → Option (List Byte)
  | [] => some []
  | .issue w :: rest =>
    match decode w with
    | .nop => bytesFed rest
    | .byte b => (bytesFed rest).map (b :: ·)
    | .clear => none
    | .reserved _ => none
  | .drive false false _ :: rest => bytesFed rest
  | .wait :: rest => bytesFed rest
  | _ => none

/-- The command word that a host action offers to the block at its rising edge, none where it offers none or drives `rst` (R135). -/
def offeredWord : HostAction → Option CmdWord
  | .issue w => some w
  | .drive false true w => some w
  | _ => none

/-- Whether a host action drives `rst` = 1 at its rising edge (R66, R150). -/
def drivesReset : HostAction → Bool
  | .reset => true
  | .drive true _ _ => true
  | _ => false

/-- Whether a host action samples `crc_out` (R66, R116, R156). -/
def samplesPort : HostAction → Bool
  | .sample => true
  | .readRaw => true
  | .patchSample _ => true
  | _ => false

/-- Whether a host action is a step of the host alone, on its file or its procedure (R110, R116, R121). -/
def fileOnly : HostAction → Bool
  | .memWrite _ _ _ => true
  | .usageError => true
  | .patch _ _ => true
  | .patchSelector _ _ => true
  | .patchPayload _ _ => true
  | .patchField _ _ => true
  | _ => false

/-- Whether a host action is a rising edge of the block, a WAIT or a loss of power: no step on the file and no sample. -/
def blockOnly : HostAction → Bool
  | .issue _ => true
  | .drive _ _ _ => true
  | .wait => true
  | .reset => true
  | .losePower => true
  | _ => false

/-- One step of the most-significant-bit-first shift register with polynomial 0x1021 (R85). -/
def serialStep (c : CrcWord) : CrcWord := if c.getLsbD 15 then (c <<< 1) ^^^ 0x1021 else c <<< 1

/-- `n` steps of the shift register (R85). -/
def serialSteps : Nat → CrcWord → CrcWord
  | 0, c => c
  | n + 1, c => serialSteps n (serialStep c)

/-- Bytewise exclusive OR of two messages (R86 b). -/
def xorBytes : List Byte → List Byte → List Byte
  | a :: as, b :: bs => (a ^^^ b) :: xorBytes as bs
  | _, _ => []

/-- The end of a run of a program (R159): no action is left and the block is idle. -/
def runEnded (s : State) : Prop := s.plan = [] ∧ s.busy = false

/-- "The final checksum" of a run: the value of the last SAMPLE (R159). -/
def finalChecksum (s : State) : Option CrcWord := s.samples.head?

/-- The block's registers and the input ports are as before: what a host step that touches only the host leaves (R66, R141). -/
def sameBlock (s t : State) : Prop :=
  t.resetSeen = s.resetSeen ∧ t.crc = s.crc ∧ t.busy = s.busy ∧ t.phase = s.phase ∧
  t.rst = s.rst ∧ t.cmdValid = s.cmdValid ∧ t.cmdWord = s.cmdWord ∧ t.draws = s.draws

/-- The host and its file are as before, but for the program: what a rising edge leaves (R41). -/
def sameHost (s t : State) : Prop :=
  t.samples = s.samples ∧ t.rawReads = s.rawReads ∧ t.file = s.file ∧ t.outcome = s.outcome

end Sys2Proof.Machine
end

