-- ==== Sys2Proof/Certificates/Slice0/Obligations.lean ====
section
/-! DEFINITION. The statements for the provers, from the numbered rules of spec/. -/

open Sys2Proof Sys2Proof.Machine

/-! ## Encoding (30_encoding.md) -/

/-- R61: a word is the command X where `w & mask(X) = match(X)`, and the four rows partition the 1024 words. -/
def Obligations.OpcodeMapPartitionsTheWords : Prop :=
  ∀ w : CmdWord,
    (w &&& 0x300 = 0x000 → decode w = .nop) ∧
    (w &&& 0x300 = 0x100 → decode w = .byte (w.extractLsb' 0 8)) ∧
    (w &&& 0x300 = 0x200 → decode w = .clear) ∧
    (w &&& 0x300 = 0x300 → decode w = .reserved w) ∧
    (w &&& 0x300 = 0x000 ∨ w &&& 0x300 = 0x100 ∨ w &&& 0x300 = 0x200 ∨ w &&& 0x300 = 0x300)

/-- R60 to R64: decode and encode agree, for every command and every value of its operands, and for every word: only the ignored
data bits of NOP and CLEAR, the two operations with bit 8 = 0, are not given back (R62). -/
def Obligations.DecodeAndEncodeAgree : Prop :=
  (∀ i : Instr, i.wellFormed = true → decode (encode i) = i) ∧
  (∀ w : CmdWord, (decode w).wellFormed = true ∧
    encode (decode w) = if w.getLsbD 8 = true then w else w &&& 0x300)

/-- R62: the data bits of NOP and CLEAR are ignored and assembled as 0. -/
def Obligations.DataOfNopAndClearIsIgnored : Prop :=
  (∀ d : Byte, decode (d.setWidth 10) = .nop) ∧
  (∀ d : Byte, decode (0x200 ||| d.setWidth 10) = .clear) ∧
  assembleLine .nop = .ok [.issue 0x000] ∧ assembleLine .clear = .ok [.issue 0x200]

/-- R63: BYTE b encodes as `0x100 | b`; its operand is the unsigned byte of the data bits, split as `b >> 4` and `b & 0xF`. -/
def Obligations.ByteEncodesItsOperand : Prop :=
  ∀ b : Byte, encode (.byte b) = 0x100 ||| b.setWidth 10 ∧ decode (0x100 ||| b.setWidth 10) = .byte b ∧
    (highNibble b).toNat = b.toNat >>> 4 ∧ (lowNibble b).toNat = b.toNat &&& 0xF

/-- 95_test_vectors.md section 2.7: its nine words, in its order. -/
def Obligations.SpecWordsDecodeAsListed : Prop :=
  decode 0x000 = .nop ∧ decode 0x0FF = .nop ∧ decode 0x102 = .byte 0x02 ∧ decode 0x100 = .byte 0x00 ∧
  decode 0x1FF = .byte 0xFF ∧ decode 0x200 = .clear ∧ decode 0x2AB = .clear ∧ decode 0x300 = .reserved 0x300 ∧
  decode 0x3FF = .reserved 0x3FF

/-- R60: the decoder of table rows reads every 10-bit number. That it refuses every wider one by name, and that the row's number of
bits is not used, is the model's reading (DEDUCED, notes/assumptions/12.md), no words of R60. -/
def Obligations.TableDecoderReadsTenBits : Prop :=
  ∀ nbits n : Nat,
    (n < 1024 → decodeTableWord nbits n = some (decode (BitVec.ofNat 10 n))) ∧
    (1024 ≤ n → decodeTableWord nbits n = none ∧ decodeNumber n = .error (.widerThanTenBits n))

/-! ## Arithmetic (40_crc_commands.md) -/

/-- R22: the contents of the ROM, entry `i` at position `i` of the source's list. -/
def Obligations.RomHoldsTheTable : Prop :=
  (List.range 16).map (fun i => romLookup (BitVec.ofNat 4 i)) =
    [0x0000, 0x1021, 0x2042, 0x3063, 0x4084, 0x50A5, 0x60C6, 0x70E7, 0x8108, 0x9129, 0xA14A, 0xB16B, 0xC18C, 0xD1AD, 0xE1CE,
     0xF1EF]

/-- R23: the ROM is linear, its entry's top nibble is its index, and an entry is the carry-less product of its index and 0x1021. -/
def Obligations.RomIsLinear : Prop :=
  (∀ i j : Nibble, romLookup (i ^^^ j) = romLookup i ^^^ romLookup j) ∧
  (∀ i : Nibble, (romLookup i).extractLsb' 12 4 = i) ∧
  (∀ i : Nibble, romLookup i = (i.setWidth 16 <<< 12) ^^^ (i.setWidth 16 <<< 5) ^^^ i.setWidth 16)

/-- R81, R82: the byte update, in the source's arithmetic on unsigned integers with its masks written out; the second round reads
the first round's result. -/
def Obligations.ByteUpdateIsTwoMaskedRounds : Prop :=
  (∀ (c : CrcWord) (n : Nibble),
    (nibbleRound c n).toNat =
      (romLookup (BitVec.ofNat 4 (((c.toNat >>> 12) ^^^ n.toNat) &&& 0xF))).toNat ^^^ ((c.toNat <<< 4) &&& 0xFFFF)) ∧
  (∀ (c : CrcWord) (b : Byte),
    let c1 := (romLookup (BitVec.ofNat 4 (((c.toNat >>> 12) ^^^ (b.toNat >>> 4)) &&& 0xF))).toNat ^^^
      ((c.toNat <<< 4) &&& 0xFFFF)
    (byteUpdate c b).toNat =
      (romLookup (BitVec.ofNat 4 (((c1 >>> 12) ^^^ (b.toNat &&& 0xF)) &&& 0xF))).toNat ^^^ ((c1 <<< 4) &&& 0xFFFF))

/-- R85: a nibble round equals four steps of the most-significant-bit-first shift register with polynomial 0x1021, and a byte
update eight. -/
def Obligations.ByteUpdateIsEightSerialSteps : Prop :=
  (∀ (c : CrcWord) (n : Nibble), nibbleRound c n = serialSteps 4 (c ^^^ (n.setWidth 16 <<< 12))) ∧
  (∀ (c : CrcWord) (b : Byte), byteUpdate c b = serialSteps 8 (c ^^^ (b.setWidth 16 <<< 8)))

/-- R84: the empty message has checksum 0x0000, and each further byte is one byte update (its loop). R86 (a): the
checksum of a longer message continues that of its first part. -/
def Obligations.ChecksumFoldsTheBytes : Prop :=
  messageCrc [] = 0x0000 ∧
  (∀ (m : List Byte) (b : Byte), messageCrc (m ++ [b]) = byteUpdate (messageCrc m) b) ∧
  (∀ m1 m2 : List Byte, messageCrc (m1 ++ m2) = m2.foldl byteUpdate (messageCrc m1))

/-- R86 (b): the checksum is linear over messages of equal length. -/
def Obligations.ChecksumIsLinear : Prop :=
  ∀ m m' : List Byte, m.length = m'.length → messageCrc (xorBytes m m') = messageCrc m ^^^ messageCrc m'

/-- R86 (c), 90_conflicts.md C1: leading zero bytes do not change the checksum. -/
def Obligations.LeadingZerosDoNotCount : Prop :=
  ∀ (n : Nat) (m : List Byte), messageCrc (List.replicate n 0x00 ++ m) = messageCrc m

/-- R86 (d): the checksum appended high byte first leaves the residue 0; in the little-endian order it generally does not, as for
"123456789", where it is 0xBAFE. -/
def Obligations.BigEndianResidueIsZero : Prop :=
  (∀ m : List Byte, messageCrc (m ++ [(messageCrc m).extractLsb' 8 8, (messageCrc m).extractLsb' 0 8]) = 0x0000) ∧
  messageCrc [0x31, 0x32, 0x33, 0x34, 0x35, 0x36, 0x37, 0x38, 0x39, 0xC3, 0x31] = 0xBAFE

/-! ## Commands (40_crc_commands.md R89 to R91; 60_exceptions.md R131, R132) -/

/-- R89: every word with op 0b00 is NOP; accepted after the first reset it completes and changes nothing at all, and before it
NotReset is raised. -/
def Obligations.NopCompletesUnchanged : Prop :=
  (∀ w : CmdWord, w &&& 0x300 = 0x000 → decode w = .nop) ∧
  (∀ s : State, s.resetSeen = true → exec .nop s = .next s) ∧
  (∀ s : State, s.resetSeen = false → exec .nop s = .fault (.notReset (.command s.cmdWord)))

/-- R91: the word `0x100 | b` is BYTE b; accepted after the first reset it completes for every operand and every `crc`: the two
rounds, the second from the first's result; `busy` and the sequencer start, and nothing else changes; with nothing more offered
`busy` is 1 for BYTE_LATENCY cycles and then 0, with the result in `crc`. Before the first reset NotReset is raised. That the
sequencer is held as edges left and `crc` takes the full result at the accepting edge is the model's (DESIGN CHOICE and DEDUCED,
notes/assumptions/3.md), and so is counting a latency in edges after that one (DEDUCED, notes/assumptions/2.md). -/
def Obligations.ByteCompletesWithTwoRounds : Prop :=
  (∀ b : Byte, decode (0x100 ||| b.setWidth 10) = .byte b) ∧
  (∀ (s : State) (b : Byte), s.resetSeen = true →
    let c1 := romLookup (s.crc.extractLsb' 12 4 ^^^ b.extractLsb' 4 4) ^^^ (s.crc <<< 4)
    let c2 := romLookup (c1.extractLsb' 12 4 ^^^ b.extractLsb' 0 4) ^^^ (c1 <<< 4)
    exec (.byte b) s = .next { s with crc := c2, busy := true, phase := .working Config.byteLatency }) ∧
  (∀ (s t : State) (b : Byte), s.plan = [] → exec (.byte b) s = .next t →
    (∀ k, k < Config.byteLatency → ∃ u, reachesIn k t u ∧ u.busy = true) ∧
    (∃ u, reachesIn Config.byteLatency t u ∧ u.busy = false ∧ u.crc = t.crc)) ∧
  (∀ (s : State) (b : Byte), s.resetSeen = false → exec (.byte b) s = .fault (.notReset (.command s.cmdWord)))

/-- R90: every word with op 0b10 is CLEAR; accepted after the first reset it completes with `crc` 0x0000 and starts `busy`, and
nothing else changes; with nothing more offered `busy` is 1 for CLEAR_LATENCY cycles and then 0. Before the first reset NotReset is
raised. That the
sequencer is held as edges left and `crc` takes the full result at the accepting edge is the model's (DESIGN CHOICE and DEDUCED,
notes/assumptions/3.md), and so is counting a latency in edges after that one (DEDUCED, notes/assumptions/2.md). -/
def Obligations.ClearCompletesAtZero : Prop :=
  (∀ w : CmdWord, w &&& 0x300 = 0x200 → decode w = .clear) ∧
  (∀ s : State, s.resetSeen = true →
    exec .clear s = .next { s with crc := 0x0000, busy := true, phase := .working Config.clearLatency }) ∧
  (∀ s t : State, s.plan = [] → exec .clear s = .next t →
    (∀ k, k < Config.clearLatency → ∃ u, reachesIn k t u ∧ u.busy = true) ∧
    (∃ u, reachesIn Config.clearLatency t u ∧ u.busy = false ∧ u.crc = 0x0000)) ∧
  (∀ s : State, s.resetSeen = false → exec .clear s = .fault (.notReset (.command s.cmdWord)))

/-- R132: a word with op 0b11 is reserved; accepted after the first reset it stops with ReservedOp and records all ten bits. -/
def Obligations.ReservedStopsWithItsWord : Prop :=
  (∀ w : CmdWord, w &&& 0x300 = 0x300 → decode w = .reserved w) ∧
  (∀ (s : State) (w : CmdWord), s.resetSeen = true → exec (.reserved w) s = .fault (.reservedOp w))

/-- R131: before the first reset every command, the reserved ones too, stops with NotReset and records the word on the port. -/
def Obligations.CommandsBeforeResetFault : Prop :=
  ∀ (s : State) (i : Instr), s.resetSeen = false → exec i s = .fault (.notReset (.command s.cmdWord))

/-- The frame of NOP, BYTE and CLEAR: the ports, the host, every byte of the file and the reset flag are unchanged; NOP leaves the
block's registers, and BYTE and CLEAR write `crc`, `busy` and `phase` only (R89 to R91, R41). -/
def Obligations.CommandsFrame : Prop :=
  ∀ (i : Instr) (s t : State), exec i s = .next t →
    t.resetSeen = s.resetSeen ∧ t.rst = s.rst ∧ t.cmdValid = s.cmdValid ∧ t.cmdWord = s.cmdWord ∧
    t.plan = s.plan ∧ t.draws = s.draws ∧ sameHost s t ∧
    (∀ a : Nat, fileByte t.file a = fileByte s.file a) ∧
    (i = .nop → t.crc = s.crc ∧ t.busy = s.busy ∧ t.phase = s.phase)

/-- R84, R91: BYTE continues the message: where `crc` is the checksum of `m`, it becomes that of `m` and the byte, which is also
eight steps of the shift register (R85). That `crc` holds
the full result from the accepting edge on is the model's reading (DEDUCED, notes/assumptions/3.md). -/
def Obligations.ByteExtendsTheMessage : Prop :=
  ∀ (s : State) (b : Byte) (m : List Byte), s.resetSeen = true → s.crc = messageCrc m →
    ∃ t, exec (.byte b) s = .next t ∧ t.crc = messageCrc (m ++ [b]) ∧ t.crc = serialSteps 8 (s.crc ^^^ (b.setWidth 16 <<< 8))

/-! ## Acceptance, handshake and time (10_state.md R26, R27; 70_reset_and_hazards.md R150 to R158) -/

/-- A step runs the decoded command: the host drives the ports, the block runs the meaning of the decoded word, and the host goes
on to the rest of its program (R26, R67). The same for the word that withFetchWord places. -/
def Obligations.StepRunsTheIssuedCommand : Prop :=
  (∀ (s : State) (w : CmdWord) (rest : List HostAction), s.plan = .issue w :: rest → s.busy = false →
    step s = andThen (exec (decode w) { s with rst := false, cmdValid := true, cmdWord := w }) fun t => { t with plan := rest }) ∧
  (∀ (s : State) (nbits n : Nat), n < 1024 →
    step (s.withFetchWord nbits n) =
      andThen (exec (decode (BitVec.ofNat 10 n))
        { s.withFetchWord nbits n with rst := false, cmdValid := true, cmdWord := BitVec.ofNat 10 n })
        fun t => { t with plan := s.plan })

/-- R155: a command offered while busy is not accepted. Issued, it stays first in the program; driven for one edge only, it is
lost. Either way `crc`, the samples and the file are unchanged. -/
def Obligations.BusyCommandIsNotAccepted : Prop :=
  ∀ (s : State) (w : CmdWord) (rest : List HostAction), s.resetSeen = true → s.busy = true →
    (s.plan = .issue w :: rest →
      ∃ t, step s = .next t ∧ t.plan = s.plan ∧ t.crc = s.crc ∧ t.cmdValid = true ∧ t.cmdWord = w ∧ sameHost s t) ∧
    (s.plan = .drive false true w :: rest →
      ∃ t, step s = .next t ∧ t.plan = rest ∧ t.crc = s.crc ∧ sameHost s t)

/-- R155: a hold is never permanent. The block is idle after at most max(BYTE_LATENCY, CLEAR_LATENCY) edges, with the command
still offered, and then the next step accepts it once. That the edge at which `busy` falls accepts nothing is the model's reading
(DEDUCED, notes/assumptions/2.md). -/
def Obligations.HoldIsLifted : Prop :=
  ∀ (s : State) (w : CmdWord) (rest : List HostAction), Inv s → s.resetSeen = true → s.busy = true →
    s.plan = .issue w :: rest →
    ∃ (n : Nat) (t : State), n ≤ max Config.byteLatency Config.clearLatency ∧ reachesIn n s t ∧
      t = { s with busy := false, phase := .idle, rst := false, cmdValid := true, cmdWord := w } ∧
      step t = andThen (exec (decode w) t) fun u => { u with plan := rest }

/-- R27: with nothing offered, a block with `n` edges of work left stays busy for fewer than `n` edges and is idle after `n`, with
`crc` as the command left it. From an accepted BYTE `n` is BYTE_LATENCY, from a CLEAR it is CLEAR_LATENCY. That a latency is counted
in edges after the accepting one is the model's reading (DEDUCED, notes/assumptions/2.md), and the sequencer as edges left is its
form (DESIGN CHOICE, notes/assumptions/3.md). -/
def Obligations.BusyLastsItsLatency : Prop :=
  ∀ (s : State) (n : Nat), s.resetSeen = true → s.busy = true → s.phase = .working n → 1 ≤ n → s.plan = [] →
    (∀ k, k < n → ∃ t, reachesIn k s t ∧ t.busy = true ∧ t.crc = s.crc) ∧
    (∃ t, reachesIn n s t ∧ t.busy = false ∧ t.phase = .idle ∧ t.crc = s.crc ∧ cmdReady t = true ∧ crcOut t = s.crc)

/-- R150, R135 order 1: an edge with `rst` = 1 sets `crc` to 0x0000, `busy` to 0 and the sequencer to idle in every state, abandons
a command in progress, and accepts no command offered on it. That RESET is one such edge, where R66 says at least one, with
`cmd_valid` = 0 and `cmd_word` as it was, is the model's choice (DESIGN CHOICE, notes/assumptions/7.md). -/
def Obligations.ResetEdgeWins : Prop :=
  ∀ (s : State) (rest : List HostAction),
    (s.plan = .reset :: rest → step s = .next { s with
      resetSeen := true, crc := 0x0000, busy := false, phase := .idle, rst := true, cmdValid := false, plan := rest }) ∧
    (∀ (v : Bool) (w : CmdWord), s.plan = .drive true v w :: rest → step s = .next { s with
      resetSeen := true, crc := 0x0000, busy := false, phase := .idle, rst := true, cmdValid := v, cmdWord := w,
      plan := rest })

/-- R28: the values after reset, and that a RESET from the unreset state leads to them. -/
def Obligations.ResetLeavesTheListedValues : Prop :=
  State.reset.crc = 0x0000 ∧ crcOut State.reset = 0x0000 ∧ State.reset.busy = false ∧ cmdReady State.reset = true ∧
  State.reset.phase = .idle ∧ State.reset.resetSeen = true ∧ powerOn.resetSeen = false ∧
  ∃ t, step { powerOn with plan := [.reset] } = .next t ∧ t.crc = 0x0000 ∧ crcOut t = 0x0000 ∧ t.busy = false ∧
    t.phase = .idle ∧ t.resetSeen = true

/-- R139: loss of power returns the block to the unreset state. What the registers then hold is free. That the host and its file
are as before is the model's choice (DESIGN CHOICE, unsafe where the host shares the power, notes/assumptions/15.md): R139 speaks
of the block only. -/
def Obligations.PowerLossUnresets : Prop :=
  ∀ (s : State) (rest : List HostAction), s.plan = .losePower :: rest →
    ∃ t, step s = .next t ∧ t.resetSeen = false ∧ t.plan = rest ∧ sameHost s t

/-- R50, R21: a SAMPLE of an idle block records `crc` and changes no state of the block, and a second one gives the same value. -/
def Obligations.SampleHasNoSideEffect : Prop :=
  ∀ (s : State) (rest : List HostAction), s.resetSeen = true → s.busy = false →
    (s.plan = .sample :: rest → step s = .next { s with samples := s.crc :: s.samples, plan := rest }) ∧
    (s.plan = .sample :: .sample :: rest →
      reachesIn 2 s { s with samples := s.crc :: s.crc :: s.samples, plan := rest })

/-- R66, R156: SAMPLE waits while the block is busy and then gives the full result of the command in progress, never a draw.
That `crc` holds
the full result from the accepting edge on is the model's reading (DEDUCED, notes/assumptions/3.md). -/
def Obligations.SampleWaitsForTheResult : Prop :=
  ∀ (s : State) (rest : List HostAction), s.resetSeen = true → s.plan = .sample :: rest →
    ∃ t, reaches s t ∧ t.plan = rest ∧ t.samples = s.crc :: s.samples ∧ t.crc = s.crc ∧ t.busy = false ∧
      t.draws = s.draws ∧ t.file = s.file ∧ t.rawReads = s.rawReads

/-- R66: WAIT ends at once on an idle block and touches nothing but the program; on a busy one it ends with the block idle.
That WAIT before the first reset, in the first clause, reads the free `busy` and raises no fault is the model's choice (DESIGN
CHOICE, notes/assumptions/6.md). -/
def Obligations.WaitEndsWithTheBlockIdle : Prop :=
  ∀ (s : State) (rest : List HostAction), s.plan = .wait :: rest →
    (s.busy = false → step s = .next { s with plan := rest }) ∧
    (s.resetSeen = true →
      ∃ t, reaches s t ∧ t.plan = rest ∧ t.resetSeen = true ∧ t.busy = false ∧ t.crc = s.crc ∧ sameHost s t)

/-- R156: a raw read while busy gives a free value, whatever it is; of an idle block it gives `crc` and takes no free value. -/
def Obligations.RawReadWhileBusyIsFree : Prop :=
  ∀ (s : State) (rest : List HostAction), s.resetSeen = true → s.plan = .readRaw :: rest →
    (s.busy = true → step s = .next { s with
      rawReads := Config.busyOutput s.draws :: s.rawReads, draws := s.draws + 1, plan := rest }) ∧
    (s.busy = false → step s = .next { s with rawReads := s.crc :: s.rawReads, plan := rest })

/-- R67: between commands, an edge with `cmd_valid` = 0 has the same effect as a NOP, on `crc` and on all but the input ports. -/
def Obligations.IdleCycleActsAsNop : Prop :=
  ∀ (s : State) (w v : CmdWord) (rest : List HostAction), s.resetSeen = true → s.busy = false → decode w = .nop →
    ∃ t u, step { s with plan := .issue w :: rest } = .next t ∧
      step { s with plan := .drive false false v :: rest } = .next u ∧
      t.crc = s.crc ∧ u.crc = s.crc ∧ { t with cmdValid := false, cmdWord := v } = u

/-- R154, R53: two BYTEs issued one after the other, in any busy state: each takes effect once, in order, the second on the full
result of the first. -/
def Obligations.CommandsTakeEffectInOrder : Prop :=
  ∀ (s : State) (b1 b2 : Byte) (rest : List HostAction), s.resetSeen = true →
    s.plan = .issue (encode (.byte b1)) :: .issue (encode (.byte b2)) :: rest →
    ∃ t, reaches s t ∧ t.plan = rest ∧ t.crc = byteUpdate (byteUpdate s.crc b1) b2 ∧ sameHost s t

/-! ## Whole-machine rules -/

/-- R92, the block's contract: after RESET, or after CLEAR, then the BYTEs of a message with any NOPs, idle cycles and WAITs between
them, the host's SAMPLE gives the message's checksum and the idle block shows it. Every state, busy or not, and for RESET the
unreset state too. -/
def Obligations.SampleGivesTheMessageChecksum : Prop :=
  ∀ (s : State) (first : HostAction) (fed rest : List HostAction) (m : List Byte),
    bytesFed fed = some m → s.plan = first :: (fed ++ .sample :: rest) →
    (first = .reset ∨ (s.resetSeen = true ∧ ∃ w : CmdWord, first = .issue w ∧ w &&& 0x300 = 0x200)) →
    ∃ t, reaches s t ∧ t.plan = rest ∧ t.resetSeen = true ∧ t.busy = false ∧ crcOut t = messageCrc m ∧
      t.samples = messageCrc m :: s.samples ∧ finalChecksum t = some (messageCrc m) ∧
      t.file = s.file ∧ t.outcome = s.outcome ∧ t.rawReads = s.rawReads

/-- R130 to R133, R135: when the machine faults, and with what. Before the first reset: a command offered, or `crc_out` sampled.
After it: a reserved word offered to an idle block. Never otherwise. R131 says accepted and R135 offered; that a command
offered before the first reset counts as accepted whatever `busy` is, and that WAIT there raises no fault, is the model's reading
and choice (DEDUCED and DESIGN CHOICE, notes/assumptions/6.md). -/
def Obligations.FaultsExactlyAsListed : Prop :=
  ∀ (s : State) (r : Fault), step s = .fault r ↔
    ∃ (a : HostAction) (rest : List HostAction), s.plan = a :: rest ∧
      ((s.resetSeen = false ∧ ∃ w, offeredWord a = some w ∧ r = .notReset (.command w)) ∨
       (s.resetSeen = false ∧ samplesPort a = true ∧ r = .notReset .sample) ∨
       (s.resetSeen = true ∧ s.busy = false ∧ ∃ w, offeredWord a = some w ∧ w &&& 0x300 = 0x300 ∧ r = .reservedOp w))

/-- Every step has an outcome of the spec: no state is refused (R130: a step, a hold or a fault). -/
def Obligations.NoStepIsRefused : Prop :=
  ∀ (s : State) (r : Refusal), step s ≠ .refused r

/-- R131 to R133, R152: a program that offers no reserved word and loses no power never faults, however many steps it runs, where
the first reset has happened or the program begins with RESET. No data, no `crc`, no order of commands, no file and no failure of a
patch can fault, and nothing that a patch puts before the block does. Every state, busy or not. -/
def Obligations.ProgramsWithoutReservedWordsNeverFault : Prop :=
  ∀ (s : State) (k : Nat), (s.resetSeen = true ∨ s.plan.head? = some .reset) →
    (∀ a ∈ s.plan, a ≠ .losePower ∧ ∀ w, offeredWord a = some w → w &&& 0x300 ≠ 0x300) →
    ∃ t, reachesIn k s t

/-- R20, R26, R139: after the first reset `crc` is written only by an accepted BYTE, an accepted CLEAR, a reset, or lost with the
power; the values written are those of R91, R90 and R150. That `crc` holds
the full result from the accepting edge on is the model's reading (DEDUCED, notes/assumptions/3.md). -/
def Obligations.OnlyByteClearAndResetWriteCrc : Prop :=
  ∀ (s t : State), s.resetSeen = true → step s = .next t → t.crc ≠ s.crc →
    ∃ (a : HostAction) (rest : List HostAction), s.plan = a :: rest ∧
      ((drivesReset a = true ∧ t.crc = 0x0000) ∨
       (s.busy = false ∧ ∃ w b, offeredWord a = some w ∧ decode w = .byte b ∧ t.crc = byteUpdate s.crc b) ∨
       (s.busy = false ∧ ∃ w, offeredWord a = some w ∧ decode w = .clear ∧ t.crc = 0x0000) ∨
       a = .losePower)

/-- R28, R131: the unreset state ends by reset only, and returns by loss of power only. -/
def Obligations.OnlyResetEndsTheUnresetState : Prop :=
  ∀ (s t : State), step s = .next t → t.resetSeen ≠ s.resetSeen →
    ∃ (a : HostAction) (rest : List HostAction), s.plan = a :: rest ∧
      ((drivesReset a = true ∧ t.resetSeen = true) ∨ (a = .losePower ∧ t.resetSeen = false))

/-- R141, R110, R116: a step of the host on its file or its procedure leaves the block and its ports as they are, whether it fails
or not. -/
def Obligations.FileStepsLeaveTheBlock : Prop :=
  ∀ (s : State) (a : HostAction) (rest : List HostAction), s.plan = a :: rest → fileOnly a = true →
    ∃ t, step s = .next t ∧ sameBlock s t ∧ t.samples = s.samples ∧ t.rawReads = s.rawReads

/-- R41: a step of the block touches no byte of the host's file, no sample and no outcome. For the loss of power, which is among
these steps, this is the model's choice (DESIGN CHOICE, unsafe where the host shares the power, notes/assumptions/15.md), not R41's. -/
def Obligations.BlockStepsLeaveTheHost : Prop :=
  ∀ (s t : State) (a : HostAction) (rest : List HostAction), s.plan = a :: rest → blockOnly a = true → step s = .next t →
    sameHost s t ∧ (t.plan = rest ∨ t.plan = s.plan) ∧ ∀ x : Nat, fileByte t.file x = fileByte s.file x

/-- R156, R66: free values reach the host through raw reads only. A step that is neither a raw read nor a loss of power, after the
first reset, is the same whatever free values come next. That a free value is an opaque function of the count of those taken is the
model's form of R156's draw (DESIGN CHOICE, notes/assumptions/4.md). -/
def Obligations.OnlyRawReadsDraw : Prop :=
  ∀ (s t : State) (d : Nat), s.resetSeen = true → s.plan.head? ≠ some .readRaw → s.plan.head? ≠ some .losePower →
    step s = .next t → t.draws = s.draws ∧ step { s with draws := d } = .next { t with draws := d }

/-- The invariant holds right after reset (R28), and in the unreset state in which a run starts. -/
def Obligations.InvariantHoldsAtReset : Prop := Inv State.reset ∧ Inv powerOn

/-- Every step keeps the invariant: the sequencer agrees with `busy` and its edges left are within the latencies (R27, R155), and
the file's bytes are canonical and within its length (R110). The edges left are the model's form of `phase` (DEDUCED and DESIGN
CHOICE, notes/assumptions/2.md and 3.md), the canonical form is its form of the file (DESIGN CHOICE, notes/assumptions/9.md), and
that the file survives a loss of power is its choice (DESIGN CHOICE, notes/assumptions/15.md). -/
def Obligations.EveryStepKeepsTheInvariant : Prop :=
  ∀ s t : State, Inv s → step s = .next t → Inv t

/-- R110, R115, R118: no step creates, deletes, extends or cuts the file. For a patch it is the spec's; that a MemWrite of the host
past the end does not extend the file is the model's choice (DESIGN CHOICE, notes/assumptions/10.md), and so is that the file
survives a loss of power (DESIGN CHOICE, unsafe where the host shares the power, notes/assumptions/15.md). -/
def Obligations.NoStepChangesTheFileLength : Prop :=
  ∀ s t : State, step s = .next t → t.file.length = s.file.length

/-! ## The profile file (48_host_usage.md) -/

/-- R110: MemWrite sets the bytes of its range to those of the value, the least significant byte at the lowest offset, and no other;
MemRead of the range gives the value back, and of any range the number whose bytes those are. What
an offset past the end of the file reads as, 0x00, is the model's choice (DESIGN CHOICE, notes/assumptions/10.md). -/
def Obligations.MemWriteSetsItsBytes : Prop :=
  ∀ (m : Memory) (a n v : Nat), m.wf = true →
    (∀ k, k < n → readByte (memWrite m a n v) (a + k) = BitVec.ofNat 8 (v >>> (8 * k))) ∧
    (∀ x, x < a ∨ a + n ≤ x → readByte (memWrite m a n v) x = readByte m x) ∧
    memRead (memWrite m a n v) a n = v % 256 ^ n ∧
    (∀ k, k < n → BitVec.ofNat 8 (memRead m a n >>> (8 * k)) = readByte m (a + k)) ∧ memRead m a n < 256 ^ n

/-- R45, R46: the stored result: `crc[7:0]`, `crc[15:8]` and two zero bytes; read as one 32-bit little-endian value it is the
zero-extended `crc`. -/
def Obligations.StoredResultIsLittleEndian : Prop :=
  ∀ (m : Memory) (a : Nat) (c : CrcWord), m.wf = true →
    readByte (memWrite m a 4 c.toNat) a = c.extractLsb' 0 8 ∧
    readByte (memWrite m a 4 c.toNat) (a + 1) = c.extractLsb' 8 8 ∧
    readByte (memWrite m a 4 c.toNat) (a + 2) = 0x00 ∧
    readByte (memWrite m a 4 c.toNat) (a + 3) = 0x00 ∧
    memRead (memWrite m a 4 c.toNat) a 2 = c.toNat ∧
    memRead (memWrite m a 4 c.toNat) a 4 = (c.setWidth 32).toNat

/-- A MemWrite of the host as a step (R110): where all its offsets exist the bytes are written and nothing else of the state but the
program changes; otherwise the outcome is IoError and nothing is written, for a write of no bytes past the end too (DESIGN
CHOICE, notes/assumptions/10.md), and the host goes on with `rest` (DESIGN CHOICE, notes/assumptions/18.md). -/
def Obligations.HostWriteStaysInTheFile : Prop :=
  ∀ (s : State) (a n v : Nat) (rest : List HostAction), s.plan = .memWrite a n v :: rest →
    (a + n ≤ s.file.length →
      step s = .next { s with file := { s.file with cells := memWrite s.file.cells a n v }, plan := rest }) ∧
    (s.file.length < a + n → step s = .next { s with outcome := some .ioError, plan := rest })

/-- R111, R123: the payload is every byte of the file from offset 128 to its end, in order. -/
def Obligations.PayloadIsTheRestOfTheFile : Prop :=
  ∀ f : ProfileFile, (payload f).length = f.length - 128 ∧
    ∀ k, 128 + k < f.length → (payload f)[k]? = some (fileByte f (128 + k))

/-- R115: a file shorter than 22634 bytes ends the patch with IoError and no write; a longer one does not. That the host then goes
on with `rest` is the model's choice (DESIGN CHOICE, notes/assumptions/18.md). -/
def Obligations.ShortFileIsNotWritten : Prop :=
  (∀ f : ProfileFile, patchFile f = none ↔ f.length < 22634) ∧
  (∀ (s : State) (start : MessageStart) (failure : Option IoPoint) (rest : List HostAction),
    s.plan = .patch start failure :: rest → s.file.length < 22634 →
    step s = .next { s with outcome := some .ioError, plan := rest })

/-- R121: a usage error leaves the file, and all but the outcome and the program, as it was. That the host then goes on with `rest`
is the model's choice (DESIGN CHOICE, notes/assumptions/18.md). -/
def Obligations.UsageErrorTouchesNothing : Prop :=
  ∀ (s : State) (rest : List HostAction), s.plan = .usageError :: rest →
    step s = .next { s with outcome := some .usageError, plan := rest }

/-- R118: the postcondition of an `Ok` patch: the selector is 0x00, the field holds the checksum of the patched payload and two zero
bytes, every other byte and the length are as before. -/
def Obligations.PatchPostcondition : Prop :=
  ∀ f g : ProfileFile, f.wf = true → patchFile f = some g →
    fileByte g 22633 = 0x00 ∧
    fileByte g 32 = (messageCrc (payload g)).extractLsb' 0 8 ∧
    fileByte g 33 = (messageCrc (payload g)).extractLsb' 8 8 ∧
    fileByte g 34 = 0x00 ∧ fileByte g 35 = 0x00 ∧
    (∀ a, a ≠ 22633 → a ≠ 32 → a ≠ 33 → a ≠ 34 → a ≠ 35 → fileByte g a = fileByte f a) ∧
    g.length = f.length ∧ g.wf = true

/-- R119: patching a patched file gives the same file. -/
def Obligations.PatchIsIdempotent : Prop :=
  ∀ f g : ProfileFile, f.wf = true → patchFile f = some g → patchFile g = some g

/-- R116, R117: the procedure step by step, with the block computing the checksum, comes to the patched file with the outcome Ok.
Every state, busy or not; started with RESET the unreset state too. -/
def Obligations.PatchRunPatchesTheFile : Prop :=
  ∀ (s : State) (start : MessageStart) (rest : List HostAction) (g : ProfileFile),
    s.plan = .patch start none :: rest → (start = .clear → s.resetSeen = true) → patchFile s.file = some g →
    ∃ t, reaches s t ∧ t.plan = rest ∧ t.file = g ∧ t.outcome = some .ok ∧ t.busy = false ∧
      crcOut t = messageCrc (payload g) ∧ t.samples = messageCrc (payload g) :: s.samples ∧ t.rawReads = s.rawReads

/-- R120, R121: a failure ends the patch with IoError at one of the three images: before step 1, after step 1, after step 4. Which
failing operation leaves which image, and that no write is partly done, is the model's choice (DESIGN CHOICE,
notes/assumptions/10.md), and so is that the host then goes on with `rest` (DESIGN CHOICE, notes/assumptions/18.md). A start with
CLEAR needs a reset block only where the failure comes after the block's part. -/
def Obligations.FailedPatchLeavesAnImage : Prop :=
  ∀ (s : State) (start : MessageStart) (p : IoPoint) (rest : List HostAction) (g : ProfileFile),
    s.plan = .patch start (some p) :: rest →
    (start = .clear → p = .writeField ∨ p = .closeFile → s.resetSeen = true) → patchFile s.file = some g →
    ∃ t, reaches s t ∧ t.plan = rest ∧ t.outcome = some .ioError ∧
      t.file = (match p with
        | .openFile => s.file
        | .writeSelector => s.file
        | .readPayload => { s.file with cells := memWrite s.file.cells 22633 1 0x00 }
        | .writeField => { s.file with cells := memWrite s.file.cells 22633 1 0x00 }
        | .closeFile => g)

/-! ## The assembler (30_encoding.md R65, R66) -/

/-- R65, R66: a line assembles exactly where all its operands are in range, and nothing is truncated: a BYTE line in range is the
word `0x100 | imm8` and a .word line in range the word of its number; out of range each is an error that names the number. The range
of .word is the model's reading (DEDUCED, notes/assumptions/11.md). -/
def Obligations.OutOfRangeOperandsAreErrors : Prop :=
  (∀ l : AsmLine, l.wellFormed = true ↔ ∃ as, assembleLine l = .ok as) ∧
  (∀ n : Nat, n < 256 → assembleLine (.byte n) = .ok [.issue (0x100 ||| BitVec.ofNat 10 n)]) ∧
  (∀ n : Nat, n < 1024 → assembleLine (.dotWord n) = .ok [.issue (BitVec.ofNat 10 n)]) ∧
  (∀ n : Nat, 256 ≤ n → assembleLine (.byte n) = .error (.outOfRange n)) ∧
  (∀ n : Nat, 1024 ≤ n → assembleLine (.dotWord n) = .error (.outOfRange n))

/-- R66: MSG expands to one BYTE for each byte, in order; STR to one for each character's code; CRC16 to CLEAR and then MSG; and what
MSG feeds to the block is the message. That CRC16 with no operands is CLEAR alone is the model's choice (DESIGN CHOICE,
notes/assumptions/11.md). -/
def Obligations.PseudoInstructionsExpand : Prop :=
  (∀ m : List Byte,
    assembleLine (.msg (m.map BitVec.toNat)) = .ok (m.map fun b => .issue (0x100 ||| b.setWidth 10)) ∧
    assembleLine (.crc16 (m.map BitVec.toNat)) = .ok (.issue 0x200 :: m.map fun b => .issue (0x100 ||| b.setWidth 10)) ∧
    bytesFed (m.map fun b => .issue (0x100 ||| b.setWidth 10)) = some m) ∧
  (∀ cs : List Char, (∀ c ∈ cs, c.toNat < 128) →
    assembleLine (.str cs) = .ok (cs.map fun c => .issue (0x100 ||| BitVec.ofNat 10 c.toNat)))

/-- R65: a comment runs from a semicolon to the end of the line. The line before the comment holds no quoted text here. -/
def Obligations.CommentsAreDropped : Prop :=
  ∀ line comment : List Char, quoteChar ∉ line → ';' ∉ line → parseLine (line ++ ';' :: comment) = parseLine line
end

