-- ==== Sys2Proof/Laws/Run.lean ====
section
/-! SUPPORT. Runs of several steps: none, one, one after the other; and that they are the runs of the host's interface. -/

namespace Sys2Proof.Machine

theorem runFor_succ_of_next {s u : State} (k : Nat) (h : step s = .next u) : runFor (k + 1) s = runFor k u := by
  simp [runFor, h]

/-- The model's runs are those of the interface in Host/Core.lean. -/
theorem core_run_eq : ∀ (k : Nat) (s : State), Host.Core.run Sys2Proof.core k s = runFor k s
  | 0, _ => rfl
  | k + 1, s => by
    cases h : step s with
    | next u =>
      rw [runFor_succ_of_next k h, ← core_run_eq k u]
      have h' : Sys2Proof.core.step s = .next u := h
      simp [Host.Core.run, h']
    | fault r =>
      have h' : Sys2Proof.core.step s = .fault r := h
      simp only [Host.Core.run, runFor, h, h']
      rfl
    | refused r =>
      have h' : Sys2Proof.core.step s = .refused r := h
      simp only [Host.Core.run, runFor, h, h']
      rfl

theorem reachesIn_zero (s : State) : reachesIn 0 s s := rfl

theorem reachesIn_succ {k : Nat} {s u t : State} (h : step s = .next u) (hu : reachesIn k u t) : reachesIn (k + 1) s t :=
  (runFor_succ_of_next k h).trans hu

theorem reachesIn_trans {k : Nat} : ∀ {j : Nat} {s u t : State}, reachesIn j s u → reachesIn k u t → reachesIn (j + k) s t
  | 0, _, _, _, h, hu => by
    cases h
    simpa using hu
  | j + 1, s, u, t, h, hu => by
    cases hs : step s with
    | next v =>
      have hv : reachesIn j v u := (runFor_succ_of_next j hs).symm.trans h
      have := reachesIn_succ hs (reachesIn_trans hv hu)
      rwa [Nat.add_right_comm] at this
    | fault r => simp [reachesIn, runFor, hs] at h
    | refused r => simp [reachesIn, runFor, hs] at h

theorem reaches_refl (s : State) : reaches s s := ⟨0, reachesIn_zero s⟩

theorem reaches_step {s u t : State} (h : step s = .next u) : reaches u t → reaches s t
  | ⟨k, hk⟩ => ⟨k + 1, reachesIn_succ h hk⟩

theorem reaches_trans {s u t : State} : reaches s u → reaches u t → reaches s t
  | ⟨_, hj⟩, ⟨_, hk⟩ => ⟨_, reachesIn_trans hj hk⟩

end Sys2Proof.Machine
end

