-- ==== Sys2Proof/Laws/Memory.lean ====
section
/-! SUPPORT. The laws of the profile-file image: a read after a write, what a write leaves alone, and that every write keeps the
canonical form (48_host_usage.md R110). -/

namespace Sys2Proof.Machine

/-! ## The canonical form -/

@[simp] theorem wfFrom_nil (lo : Nat) : wfFrom lo [] = true := rfl

@[simp] theorem wfFrom_cons (lo a : Nat) (v : Byte) (m : Memory) :
    wfFrom lo ((a, v) :: m) = true ↔ lo ≤ a ∧ v ≠ unlistedByte ∧ wfFrom (a + 1) m = true := by
  simp [wfFrom, and_assoc]

theorem wfFrom_mono {lo hi : Nat} (h : lo ≤ hi) : ∀ {m : Memory}, wfFrom hi m = true → wfFrom lo m = true
  | [], _ => rfl
  | (a, v) :: m, hm => by
    rw [wfFrom_cons] at hm ⊢
    exact ⟨h.trans hm.1, hm.2⟩

theorem wfFrom_consByte {lo a : Nat} {v : Byte} {m : Memory} (h : lo ≤ a) (hm : wfFrom (a + 1) m = true) :
    wfFrom lo (consByte a v m) = true := by
  unfold consByte
  split
  · exact wfFrom_mono (by omega) hm
  · simp_all

theorem wfFrom_writeByte {a : Nat} {v : Byte} : ∀ {m : Memory} {lo : Nat}, lo ≤ a → wfFrom lo m = true →
    wfFrom lo (writeByte m a v) = true
  | [], _, h, _ => wfFrom_consByte h rfl
  | (b, u) :: m, lo, h, hm => by
    rw [wfFrom_cons] at hm
    unfold writeByte
    split
    · exact wfFrom_consByte h ((wfFrom_cons ..).2 ⟨by omega, hm.2⟩)
    · split
      · subst_vars; exact wfFrom_consByte h hm.2.2
      · exact (wfFrom_cons ..).2 ⟨hm.1, hm.2.1, wfFrom_writeByte (by omega) hm.2.2⟩

/-- A write of one byte keeps the canonical form. -/
theorem writeByte_wf {m : Memory} (a : Nat) (v : Byte) (h : m.wf = true) : (writeByte m a v).wf = true :=
  wfFrom_writeByte (Nat.zero_le a) h

/-- A write of any width keeps the canonical form. -/
theorem memWrite_wf : ∀ (n : Nat) {m : Memory} (a v : Nat), m.wf = true → (memWrite m a n v).wf = true
  | 0, _, _, _, h => h
  | n + 1, _, a, v, h => memWrite_wf n (a + 1) (v / 256) (writeByte_wf a _ h)

/-! ## Reading what was written -/

@[simp] theorem readByte_nil (a : Nat) : readByte [] a = unlistedByte := rfl

theorem readByte_cons (a b : Nat) (v : Byte) (m : Memory) :
    readByte ((b, v) :: m) a = if a = b then v else readByte m a := rfl

/-- Below the first address of a canonical memory nothing is listed. -/
theorem readByte_below {a : Nat} : ∀ {m : Memory} {lo : Nat}, wfFrom lo m = true → a < lo → readByte m a = unlistedByte
  | [], _, _, _ => rfl
  | (b, v) :: m, lo, h, hlt => by
    rw [wfFrom_cons] at h
    rw [readByte_cons, if_neg (by omega)]
    exact readByte_below h.2.2 (by omega)

theorem readByte_consByte_other {a c : Nat} (v : Byte) (m : Memory) (h : c ≠ a) :
    readByte (consByte a v m) c = readByte m c := by
  unfold consByte
  split
  · rfl
  · rw [readByte_cons, if_neg h]

/-- A write of one byte leaves every other byte alone. -/
theorem readByte_writeByte_other {a c : Nat} (v : Byte) (h : c ≠ a) : ∀ m : Memory,
    readByte (writeByte m a v) c = readByte m c
  | [] => readByte_consByte_other v [] h
  | (b, u) :: m => by
    unfold writeByte
    split
    · exact readByte_consByte_other v _ h
    · split
      · subst_vars; rw [readByte_consByte_other v _ h, readByte_cons, if_neg h]
      · rw [readByte_cons, readByte_cons, readByte_writeByte_other v h m]

theorem readByte_writeByte_from {a : Nat} {v : Byte} : ∀ {m : Memory} {lo : Nat}, wfFrom lo m = true →
    readByte (writeByte m a v) a = v
  | [], _, _ => by
    unfold writeByte consByte
    split <;> simp_all [readByte_cons]
  | (b, u) :: m, lo, h => by
    rw [wfFrom_cons] at h
    unfold writeByte
    split
    · unfold consByte
      split
      · subst_vars; exact readByte_below (m := (b, u) :: m) ((wfFrom_cons ..).2 ⟨Nat.le_refl b, h.2⟩) ‹_›
      · simp [readByte_cons]
    · split
      · subst_vars
        unfold consByte
        split
        · subst_vars; exact readByte_below h.2.2 (by omega)
        · simp [readByte_cons]
      · rw [readByte_cons, if_neg ‹_›]
        exact readByte_writeByte_from h.2.2

/-- A read after a write of one byte gives the byte written. -/
theorem readByte_writeByte {m : Memory} (a : Nat) (v : Byte) (h : m.wf = true) : readByte (writeByte m a v) a = v :=
  readByte_writeByte_from h

/-- A write of `n` bytes leaves every byte outside them alone. -/
theorem readByte_memWrite_other : ∀ (n : Nat) (m : Memory) {a c : Nat} (v : Nat), c < a ∨ a + n ≤ c →
    readByte (memWrite m a n v) c = readByte m c
  | 0, _, _, _, _, _ => rfl
  | n + 1, m, a, c, v, h => by
    unfold memWrite
    rw [readByte_memWrite_other n _ _ (by omega), readByte_writeByte_other _ (by omega)]

/-- Equal bytes at every offset make equal canonical memories. -/
theorem eq_of_readByte_eq : ∀ {m m' : Memory} {lo : Nat}, wfFrom lo m = true → wfFrom lo m' = true →
    (∀ a, readByte m a = readByte m' a) → m = m'
  | [], [], _, _, _, _ => rfl
  | [], (b, v) :: m', lo, _, h', e => by
    rw [wfFrom_cons] at h'
    exact absurd (by simpa [readByte_cons] using (e b).symm) h'.2.1
  | (b, v) :: m, [], lo, h, _, e => by
    rw [wfFrom_cons] at h
    exact absurd (by simpa [readByte_cons] using e b) h.2.1
  | (b, v) :: m, (b', v') :: m', lo, h, h', e => by
    rw [wfFrom_cons] at h h'
    obtain hlt | rfl | hgt := Nat.lt_trichotomy b b'
    · have := e b
      rw [readByte_cons, if_pos rfl, readByte_cons, if_neg (by omega), readByte_below h'.2.2 (by omega)] at this
      exact absurd this h.2.1
    · have hv : v = v' := by simpa [readByte_cons] using e b
      subst hv
      have hm : m = m' := eq_of_readByte_eq h.2.2 h'.2.2 fun a => by
        by_cases hab : a = b
        · subst hab; rw [readByte_below h.2.2 (by omega), readByte_below h'.2.2 (by omega)]
        · simpa [readByte_cons, hab] using e a
      rw [hm]
    · have := e b'
      rw [readByte_cons, if_neg (by omega), readByte_cons, if_pos rfl, readByte_below h.2.2 (by omega)] at this
      exact absurd this.symm h'.2.1

/-! ## Files -/

theorem ProfileFile.wf_iff (f : ProfileFile) :
    f.wf = true ↔ f.cells.wf = true ∧ ∀ c ∈ f.cells, c.1 < f.length := by
  simp [ProfileFile.wf]

theorem mem_consByte {a : Nat} {v : Byte} {m : Memory} {c : Host.Cell} (h : c ∈ consByte a v m) : c.1 = a ∨ c ∈ m := by
  unfold consByte at h
  split at h
  · exact .inr h
  · simp only [List.mem_cons] at h
    exact h.imp (fun e => by rw [e]) id

theorem mem_writeByte {a : Nat} {v : Byte} {c : Host.Cell} : ∀ {m : Memory}, c ∈ writeByte m a v → c.1 = a ∨ c ∈ m
  | [], h => mem_consByte h
  | (b, u) :: m, h => by
    unfold writeByte at h
    split at h
    · exact mem_consByte h
    · split at h
      · exact (mem_consByte h).imp id (List.mem_cons_of_mem _)
      · simp only [List.mem_cons] at h ⊢
        rcases h with h | h
        · exact .inr (.inl h)
        · exact (mem_writeByte h).imp id .inr

theorem mem_memWrite {c : Host.Cell} : ∀ (n : Nat) {m : Memory} {a v : Nat}, c ∈ memWrite m a n v →
    (a ≤ c.1 ∧ c.1 < a + n) ∨ c ∈ m
  | 0, _, _, _, h => .inr h
  | n + 1, _, a, v, h => by
    rcases mem_memWrite n h with h | h
    · exact .inl (by omega)
    · exact (mem_writeByte h).imp (by omega) id

/-- A write within a file keeps it well formed, and its length. -/
theorem memWrite_file_wf {f : ProfileFile} {a n : Nat} (v : Nat) (hf : f.wf = true) (h : a + n ≤ f.length) :
    ({ f with cells := memWrite f.cells a n v } : ProfileFile).wf = true := by
  rw [ProfileFile.wf_iff] at hf ⊢
  exact ⟨memWrite_wf n a v hf.1, fun c hc => (mem_memWrite n hc).elim (by simp; omega) (hf.2 c)⟩

/-- Everything a file write can do: all its offsets exist and the bytes are written, or nothing happens. -/
theorem fileWrite_cases (f : ProfileFile) (a n v : Nat) :
    (a + n ≤ f.length ∧ fileWrite f a n v = some { f with cells := memWrite f.cells a n v }) ∨
    (f.length < a + n ∧ fileWrite f a n v = none) := by
  unfold fileWrite
  by_cases h : a + n ≤ f.length
  · exact .inl ⟨h, if_pos h⟩
  · exact .inr ⟨by omega, if_neg h⟩

/-- A file write keeps a file well formed and its length. -/
theorem fileWrite_keeps {f g : ProfileFile} {a n v : Nat} (h : fileWrite f a n v = some g) :
    g.length = f.length ∧ (f.wf = true → g.wf = true) := by
  rcases fileWrite_cases f a n v with ⟨hl, e⟩ | ⟨-, e⟩ <;> rw [e] at h
  · obtain rfl := Option.some.inj h
    exact ⟨rfl, fun hf => memWrite_file_wf v hf hl⟩
  · cases h

/-- The file at reset is canonical. -/
theorem reset_file_wf : State.reset.file.wf = true := rfl

end Sys2Proof.Machine
end

