-- ==== Sys2Proof/Laws/State.lean ====
section
/-! SUPPORT. The fields of a state after each update: one lemma for each field of each update, so that no later proof unfolds one. -/

namespace Sys2Proof.Machine

@[simp] theorem State.writeCrc_resetSeen (s : State) (c : CrcWord) : (s.writeCrc c).resetSeen = s.resetSeen := rfl
@[simp] theorem State.writeCrc_crc (s : State) (c : CrcWord) : (s.writeCrc c).crc = c := rfl
@[simp] theorem State.writeCrc_busy (s : State) (c : CrcWord) : (s.writeCrc c).busy = s.busy := rfl
@[simp] theorem State.writeCrc_phase (s : State) (c : CrcWord) : (s.writeCrc c).phase = s.phase := rfl
@[simp] theorem State.writeCrc_rst (s : State) (c : CrcWord) : (s.writeCrc c).rst = s.rst := rfl
@[simp] theorem State.writeCrc_cmdValid (s : State) (c : CrcWord) : (s.writeCrc c).cmdValid = s.cmdValid := rfl
@[simp] theorem State.writeCrc_cmdWord (s : State) (c : CrcWord) : (s.writeCrc c).cmdWord = s.cmdWord := rfl
@[simp] theorem State.writeCrc_plan (s : State) (c : CrcWord) : (s.writeCrc c).plan = s.plan := rfl
@[simp] theorem State.writeCrc_samples (s : State) (c : CrcWord) : (s.writeCrc c).samples = s.samples := rfl
@[simp] theorem State.writeCrc_rawReads (s : State) (c : CrcWord) : (s.writeCrc c).rawReads = s.rawReads := rfl
@[simp] theorem State.writeCrc_file (s : State) (c : CrcWord) : (s.writeCrc c).file = s.file := rfl
@[simp] theorem State.writeCrc_outcome (s : State) (c : CrcWord) : (s.writeCrc c).outcome = s.outcome := rfl
@[simp] theorem State.writeCrc_draws (s : State) (c : CrcWord) : (s.writeCrc c).draws = s.draws := rfl

@[simp] theorem State.setSequencer_resetSeen (s : State) (b : Bool) (p : Phase) : (s.setSequencer b p).resetSeen = s.resetSeen := rfl
@[simp] theorem State.setSequencer_crc (s : State) (b : Bool) (p : Phase) : (s.setSequencer b p).crc = s.crc := rfl
@[simp] theorem State.setSequencer_busy (s : State) (b : Bool) (p : Phase) : (s.setSequencer b p).busy = b := rfl
@[simp] theorem State.setSequencer_phase (s : State) (b : Bool) (p : Phase) : (s.setSequencer b p).phase = p := rfl
@[simp] theorem State.setSequencer_rst (s : State) (b : Bool) (p : Phase) : (s.setSequencer b p).rst = s.rst := rfl
@[simp] theorem State.setSequencer_cmdValid (s : State) (b : Bool) (p : Phase) : (s.setSequencer b p).cmdValid = s.cmdValid := rfl
@[simp] theorem State.setSequencer_cmdWord (s : State) (b : Bool) (p : Phase) : (s.setSequencer b p).cmdWord = s.cmdWord := rfl
@[simp] theorem State.setSequencer_plan (s : State) (b : Bool) (p : Phase) : (s.setSequencer b p).plan = s.plan := rfl
@[simp] theorem State.setSequencer_samples (s : State) (b : Bool) (p : Phase) : (s.setSequencer b p).samples = s.samples := rfl
@[simp] theorem State.setSequencer_rawReads (s : State) (b : Bool) (p : Phase) : (s.setSequencer b p).rawReads = s.rawReads := rfl
@[simp] theorem State.setSequencer_file (s : State) (b : Bool) (p : Phase) : (s.setSequencer b p).file = s.file := rfl
@[simp] theorem State.setSequencer_outcome (s : State) (b : Bool) (p : Phase) : (s.setSequencer b p).outcome = s.outcome := rfl
@[simp] theorem State.setSequencer_draws (s : State) (b : Bool) (p : Phase) : (s.setSequencer b p).draws = s.draws := rfl

@[simp] theorem State.setResetSeen_resetSeen (s : State) (b : Bool) : (s.setResetSeen b).resetSeen = b := rfl
@[simp] theorem State.setResetSeen_crc (s : State) (b : Bool) : (s.setResetSeen b).crc = s.crc := rfl
@[simp] theorem State.setResetSeen_busy (s : State) (b : Bool) : (s.setResetSeen b).busy = s.busy := rfl
@[simp] theorem State.setResetSeen_phase (s : State) (b : Bool) : (s.setResetSeen b).phase = s.phase := rfl
@[simp] theorem State.setResetSeen_rst (s : State) (b : Bool) : (s.setResetSeen b).rst = s.rst := rfl
@[simp] theorem State.setResetSeen_cmdValid (s : State) (b : Bool) : (s.setResetSeen b).cmdValid = s.cmdValid := rfl
@[simp] theorem State.setResetSeen_cmdWord (s : State) (b : Bool) : (s.setResetSeen b).cmdWord = s.cmdWord := rfl
@[simp] theorem State.setResetSeen_plan (s : State) (b : Bool) : (s.setResetSeen b).plan = s.plan := rfl
@[simp] theorem State.setResetSeen_samples (s : State) (b : Bool) : (s.setResetSeen b).samples = s.samples := rfl
@[simp] theorem State.setResetSeen_rawReads (s : State) (b : Bool) : (s.setResetSeen b).rawReads = s.rawReads := rfl
@[simp] theorem State.setResetSeen_file (s : State) (b : Bool) : (s.setResetSeen b).file = s.file := rfl
@[simp] theorem State.setResetSeen_outcome (s : State) (b : Bool) : (s.setResetSeen b).outcome = s.outcome := rfl
@[simp] theorem State.setResetSeen_draws (s : State) (b : Bool) : (s.setResetSeen b).draws = s.draws := rfl

@[simp] theorem State.drivePins_resetSeen (s : State) (r v : Bool) (w : CmdWord) : (s.drivePins r v w).resetSeen = s.resetSeen := rfl
@[simp] theorem State.drivePins_crc (s : State) (r v : Bool) (w : CmdWord) : (s.drivePins r v w).crc = s.crc := rfl
@[simp] theorem State.drivePins_busy (s : State) (r v : Bool) (w : CmdWord) : (s.drivePins r v w).busy = s.busy := rfl
@[simp] theorem State.drivePins_phase (s : State) (r v : Bool) (w : CmdWord) : (s.drivePins r v w).phase = s.phase := rfl
@[simp] theorem State.drivePins_rst (s : State) (r v : Bool) (w : CmdWord) : (s.drivePins r v w).rst = r := rfl
@[simp] theorem State.drivePins_cmdValid (s : State) (r v : Bool) (w : CmdWord) : (s.drivePins r v w).cmdValid = v := rfl
@[simp] theorem State.drivePins_cmdWord (s : State) (r v : Bool) (w : CmdWord) : (s.drivePins r v w).cmdWord = w := rfl
@[simp] theorem State.drivePins_plan (s : State) (r v : Bool) (w : CmdWord) : (s.drivePins r v w).plan = s.plan := rfl
@[simp] theorem State.drivePins_samples (s : State) (r v : Bool) (w : CmdWord) : (s.drivePins r v w).samples = s.samples := rfl
@[simp] theorem State.drivePins_rawReads (s : State) (r v : Bool) (w : CmdWord) : (s.drivePins r v w).rawReads = s.rawReads := rfl
@[simp] theorem State.drivePins_file (s : State) (r v : Bool) (w : CmdWord) : (s.drivePins r v w).file = s.file := rfl
@[simp] theorem State.drivePins_outcome (s : State) (r v : Bool) (w : CmdWord) : (s.drivePins r v w).outcome = s.outcome := rfl
@[simp] theorem State.drivePins_draws (s : State) (r v : Bool) (w : CmdWord) : (s.drivePins r v w).draws = s.draws := rfl

@[simp] theorem State.setPlan_resetSeen (s : State) (p : List HostAction) : (s.setPlan p).resetSeen = s.resetSeen := rfl
@[simp] theorem State.setPlan_crc (s : State) (p : List HostAction) : (s.setPlan p).crc = s.crc := rfl
@[simp] theorem State.setPlan_busy (s : State) (p : List HostAction) : (s.setPlan p).busy = s.busy := rfl
@[simp] theorem State.setPlan_phase (s : State) (p : List HostAction) : (s.setPlan p).phase = s.phase := rfl
@[simp] theorem State.setPlan_rst (s : State) (p : List HostAction) : (s.setPlan p).rst = s.rst := rfl
@[simp] theorem State.setPlan_cmdValid (s : State) (p : List HostAction) : (s.setPlan p).cmdValid = s.cmdValid := rfl
@[simp] theorem State.setPlan_cmdWord (s : State) (p : List HostAction) : (s.setPlan p).cmdWord = s.cmdWord := rfl
@[simp] theorem State.setPlan_plan (s : State) (p : List HostAction) : (s.setPlan p).plan = p := rfl
@[simp] theorem State.setPlan_samples (s : State) (p : List HostAction) : (s.setPlan p).samples = s.samples := rfl
@[simp] theorem State.setPlan_rawReads (s : State) (p : List HostAction) : (s.setPlan p).rawReads = s.rawReads := rfl
@[simp] theorem State.setPlan_file (s : State) (p : List HostAction) : (s.setPlan p).file = s.file := rfl
@[simp] theorem State.setPlan_outcome (s : State) (p : List HostAction) : (s.setPlan p).outcome = s.outcome := rfl
@[simp] theorem State.setPlan_draws (s : State) (p : List HostAction) : (s.setPlan p).draws = s.draws := rfl

@[simp] theorem State.recordSample_resetSeen (s : State) (c : CrcWord) : (s.recordSample c).resetSeen = s.resetSeen := rfl
@[simp] theorem State.recordSample_crc (s : State) (c : CrcWord) : (s.recordSample c).crc = s.crc := rfl
@[simp] theorem State.recordSample_busy (s : State) (c : CrcWord) : (s.recordSample c).busy = s.busy := rfl
@[simp] theorem State.recordSample_phase (s : State) (c : CrcWord) : (s.recordSample c).phase = s.phase := rfl
@[simp] theorem State.recordSample_rst (s : State) (c : CrcWord) : (s.recordSample c).rst = s.rst := rfl
@[simp] theorem State.recordSample_cmdValid (s : State) (c : CrcWord) : (s.recordSample c).cmdValid = s.cmdValid := rfl
@[simp] theorem State.recordSample_cmdWord (s : State) (c : CrcWord) : (s.recordSample c).cmdWord = s.cmdWord := rfl
@[simp] theorem State.recordSample_plan (s : State) (c : CrcWord) : (s.recordSample c).plan = s.plan := rfl
@[simp] theorem State.recordSample_samples (s : State) (c : CrcWord) : (s.recordSample c).samples = c :: s.samples := rfl
@[simp] theorem State.recordSample_rawReads (s : State) (c : CrcWord) : (s.recordSample c).rawReads = s.rawReads := rfl
@[simp] theorem State.recordSample_file (s : State) (c : CrcWord) : (s.recordSample c).file = s.file := rfl
@[simp] theorem State.recordSample_outcome (s : State) (c : CrcWord) : (s.recordSample c).outcome = s.outcome := rfl
@[simp] theorem State.recordSample_draws (s : State) (c : CrcWord) : (s.recordSample c).draws = s.draws := rfl

@[simp] theorem State.recordRawRead_resetSeen (s : State) (c : CrcWord) : (s.recordRawRead c).resetSeen = s.resetSeen := rfl
@[simp] theorem State.recordRawRead_crc (s : State) (c : CrcWord) : (s.recordRawRead c).crc = s.crc := rfl
@[simp] theorem State.recordRawRead_busy (s : State) (c : CrcWord) : (s.recordRawRead c).busy = s.busy := rfl
@[simp] theorem State.recordRawRead_phase (s : State) (c : CrcWord) : (s.recordRawRead c).phase = s.phase := rfl
@[simp] theorem State.recordRawRead_rst (s : State) (c : CrcWord) : (s.recordRawRead c).rst = s.rst := rfl
@[simp] theorem State.recordRawRead_cmdValid (s : State) (c : CrcWord) : (s.recordRawRead c).cmdValid = s.cmdValid := rfl
@[simp] theorem State.recordRawRead_cmdWord (s : State) (c : CrcWord) : (s.recordRawRead c).cmdWord = s.cmdWord := rfl
@[simp] theorem State.recordRawRead_plan (s : State) (c : CrcWord) : (s.recordRawRead c).plan = s.plan := rfl
@[simp] theorem State.recordRawRead_samples (s : State) (c : CrcWord) : (s.recordRawRead c).samples = s.samples := rfl
@[simp] theorem State.recordRawRead_rawReads (s : State) (c : CrcWord) : (s.recordRawRead c).rawReads = c :: s.rawReads := rfl
@[simp] theorem State.recordRawRead_file (s : State) (c : CrcWord) : (s.recordRawRead c).file = s.file := rfl
@[simp] theorem State.recordRawRead_outcome (s : State) (c : CrcWord) : (s.recordRawRead c).outcome = s.outcome := rfl
@[simp] theorem State.recordRawRead_draws (s : State) (c : CrcWord) : (s.recordRawRead c).draws = s.draws := rfl

@[simp] theorem State.setFile_resetSeen (s : State) (f : ProfileFile) : (s.setFile f).resetSeen = s.resetSeen := rfl
@[simp] theorem State.setFile_crc (s : State) (f : ProfileFile) : (s.setFile f).crc = s.crc := rfl
@[simp] theorem State.setFile_busy (s : State) (f : ProfileFile) : (s.setFile f).busy = s.busy := rfl
@[simp] theorem State.setFile_phase (s : State) (f : ProfileFile) : (s.setFile f).phase = s.phase := rfl
@[simp] theorem State.setFile_rst (s : State) (f : ProfileFile) : (s.setFile f).rst = s.rst := rfl
@[simp] theorem State.setFile_cmdValid (s : State) (f : ProfileFile) : (s.setFile f).cmdValid = s.cmdValid := rfl
@[simp] theorem State.setFile_cmdWord (s : State) (f : ProfileFile) : (s.setFile f).cmdWord = s.cmdWord := rfl
@[simp] theorem State.setFile_plan (s : State) (f : ProfileFile) : (s.setFile f).plan = s.plan := rfl
@[simp] theorem State.setFile_samples (s : State) (f : ProfileFile) : (s.setFile f).samples = s.samples := rfl
@[simp] theorem State.setFile_rawReads (s : State) (f : ProfileFile) : (s.setFile f).rawReads = s.rawReads := rfl
@[simp] theorem State.setFile_file (s : State) (f : ProfileFile) : (s.setFile f).file = f := rfl
@[simp] theorem State.setFile_outcome (s : State) (f : ProfileFile) : (s.setFile f).outcome = s.outcome := rfl
@[simp] theorem State.setFile_draws (s : State) (f : ProfileFile) : (s.setFile f).draws = s.draws := rfl

@[simp] theorem State.setOutcome_resetSeen (s : State) (o : Option HostOutcome) : (s.setOutcome o).resetSeen = s.resetSeen := rfl
@[simp] theorem State.setOutcome_crc (s : State) (o : Option HostOutcome) : (s.setOutcome o).crc = s.crc := rfl
@[simp] theorem State.setOutcome_busy (s : State) (o : Option HostOutcome) : (s.setOutcome o).busy = s.busy := rfl
@[simp] theorem State.setOutcome_phase (s : State) (o : Option HostOutcome) : (s.setOutcome o).phase = s.phase := rfl
@[simp] theorem State.setOutcome_rst (s : State) (o : Option HostOutcome) : (s.setOutcome o).rst = s.rst := rfl
@[simp] theorem State.setOutcome_cmdValid (s : State) (o : Option HostOutcome) : (s.setOutcome o).cmdValid = s.cmdValid := rfl
@[simp] theorem State.setOutcome_cmdWord (s : State) (o : Option HostOutcome) : (s.setOutcome o).cmdWord = s.cmdWord := rfl
@[simp] theorem State.setOutcome_plan (s : State) (o : Option HostOutcome) : (s.setOutcome o).plan = s.plan := rfl
@[simp] theorem State.setOutcome_samples (s : State) (o : Option HostOutcome) : (s.setOutcome o).samples = s.samples := rfl
@[simp] theorem State.setOutcome_rawReads (s : State) (o : Option HostOutcome) : (s.setOutcome o).rawReads = s.rawReads := rfl
@[simp] theorem State.setOutcome_file (s : State) (o : Option HostOutcome) : (s.setOutcome o).file = s.file := rfl
@[simp] theorem State.setOutcome_outcome (s : State) (o : Option HostOutcome) : (s.setOutcome o).outcome = o := rfl
@[simp] theorem State.setOutcome_draws (s : State) (o : Option HostOutcome) : (s.setOutcome o).draws = s.draws := rfl

@[simp] theorem State.advanceDraws_resetSeen (s : State) : (s.advanceDraws).resetSeen = s.resetSeen := rfl
@[simp] theorem State.advanceDraws_crc (s : State) : (s.advanceDraws).crc = s.crc := rfl
@[simp] theorem State.advanceDraws_busy (s : State) : (s.advanceDraws).busy = s.busy := rfl
@[simp] theorem State.advanceDraws_phase (s : State) : (s.advanceDraws).phase = s.phase := rfl
@[simp] theorem State.advanceDraws_rst (s : State) : (s.advanceDraws).rst = s.rst := rfl
@[simp] theorem State.advanceDraws_cmdValid (s : State) : (s.advanceDraws).cmdValid = s.cmdValid := rfl
@[simp] theorem State.advanceDraws_cmdWord (s : State) : (s.advanceDraws).cmdWord = s.cmdWord := rfl
@[simp] theorem State.advanceDraws_plan (s : State) : (s.advanceDraws).plan = s.plan := rfl
@[simp] theorem State.advanceDraws_samples (s : State) : (s.advanceDraws).samples = s.samples := rfl
@[simp] theorem State.advanceDraws_rawReads (s : State) : (s.advanceDraws).rawReads = s.rawReads := rfl
@[simp] theorem State.advanceDraws_file (s : State) : (s.advanceDraws).file = s.file := rfl
@[simp] theorem State.advanceDraws_outcome (s : State) : (s.advanceDraws).outcome = s.outcome := rfl
@[simp] theorem State.advanceDraws_draws (s : State) : (s.advanceDraws).draws = s.draws + 1 := rfl

@[simp] theorem startBusy_resetSeen (s : State) (n : Nat) : (startBusy s n).resetSeen = s.resetSeen := rfl
@[simp] theorem startBusy_crc (s : State) (n : Nat) : (startBusy s n).crc = s.crc := rfl
@[simp] theorem startBusy_busy (s : State) (n : Nat) : (startBusy s n).busy = true := rfl
@[simp] theorem startBusy_phase (s : State) (n : Nat) : (startBusy s n).phase = .working n := rfl
@[simp] theorem startBusy_rst (s : State) (n : Nat) : (startBusy s n).rst = s.rst := rfl
@[simp] theorem startBusy_cmdValid (s : State) (n : Nat) : (startBusy s n).cmdValid = s.cmdValid := rfl
@[simp] theorem startBusy_cmdWord (s : State) (n : Nat) : (startBusy s n).cmdWord = s.cmdWord := rfl
@[simp] theorem startBusy_plan (s : State) (n : Nat) : (startBusy s n).plan = s.plan := rfl
@[simp] theorem startBusy_samples (s : State) (n : Nat) : (startBusy s n).samples = s.samples := rfl
@[simp] theorem startBusy_rawReads (s : State) (n : Nat) : (startBusy s n).rawReads = s.rawReads := rfl
@[simp] theorem startBusy_file (s : State) (n : Nat) : (startBusy s n).file = s.file := rfl
@[simp] theorem startBusy_outcome (s : State) (n : Nat) : (startBusy s n).outcome = s.outcome := rfl
@[simp] theorem startBusy_draws (s : State) (n : Nat) : (startBusy s n).draws = s.draws := rfl

@[simp] theorem applyReset_resetSeen (s : State) : (applyReset s).resetSeen = true := rfl
@[simp] theorem applyReset_crc (s : State) : (applyReset s).crc = crcInit := rfl
@[simp] theorem applyReset_busy (s : State) : (applyReset s).busy = false := rfl
@[simp] theorem applyReset_phase (s : State) : (applyReset s).phase = .idle := rfl
@[simp] theorem applyReset_rst (s : State) : (applyReset s).rst = s.rst := rfl
@[simp] theorem applyReset_cmdValid (s : State) : (applyReset s).cmdValid = s.cmdValid := rfl
@[simp] theorem applyReset_cmdWord (s : State) : (applyReset s).cmdWord = s.cmdWord := rfl
@[simp] theorem applyReset_plan (s : State) : (applyReset s).plan = s.plan := rfl
@[simp] theorem applyReset_samples (s : State) : (applyReset s).samples = s.samples := rfl
@[simp] theorem applyReset_rawReads (s : State) : (applyReset s).rawReads = s.rawReads := rfl
@[simp] theorem applyReset_file (s : State) : (applyReset s).file = s.file := rfl
@[simp] theorem applyReset_outcome (s : State) : (applyReset s).outcome = s.outcome := rfl
@[simp] theorem applyReset_draws (s : State) : (applyReset s).draws = s.draws := rfl

@[simp] theorem unspecify_resetSeen (s : State) : (unspecify s).resetSeen = s.resetSeen := rfl
@[simp] theorem unspecify_crc (s : State) : (unspecify s).crc = Config.unsetCrc s.draws := rfl
@[simp] theorem unspecify_busy (s : State) : (unspecify s).busy = Config.unsetBusy s.draws := rfl
@[simp] theorem unspecify_phase (s : State) : (unspecify s).phase = phaseOfCount (Config.unsetPhase s.draws) := rfl
@[simp] theorem unspecify_rst (s : State) : (unspecify s).rst = s.rst := rfl
@[simp] theorem unspecify_cmdValid (s : State) : (unspecify s).cmdValid = s.cmdValid := rfl
@[simp] theorem unspecify_cmdWord (s : State) : (unspecify s).cmdWord = s.cmdWord := rfl
@[simp] theorem unspecify_plan (s : State) : (unspecify s).plan = s.plan := rfl
@[simp] theorem unspecify_samples (s : State) : (unspecify s).samples = s.samples := rfl
@[simp] theorem unspecify_rawReads (s : State) : (unspecify s).rawReads = s.rawReads := rfl
@[simp] theorem unspecify_file (s : State) : (unspecify s).file = s.file := rfl
@[simp] theorem unspecify_outcome (s : State) : (unspecify s).outcome = s.outcome := rfl
@[simp] theorem unspecify_draws (s : State) : (unspecify s).draws = s.draws + 1 := rfl

@[simp] theorem losePower_resetSeen (s : State) : (losePower s).resetSeen = false := rfl
@[simp] theorem losePower_crc (s : State) : (losePower s).crc = Config.unsetCrc s.draws := rfl
@[simp] theorem losePower_busy (s : State) : (losePower s).busy = Config.unsetBusy s.draws := rfl
@[simp] theorem losePower_phase (s : State) : (losePower s).phase = phaseOfCount (Config.unsetPhase s.draws) := rfl
@[simp] theorem losePower_rst (s : State) : (losePower s).rst = s.rst := rfl
@[simp] theorem losePower_cmdValid (s : State) : (losePower s).cmdValid = s.cmdValid := rfl
@[simp] theorem losePower_cmdWord (s : State) : (losePower s).cmdWord = s.cmdWord := rfl
@[simp] theorem losePower_plan (s : State) : (losePower s).plan = s.plan := rfl
@[simp] theorem losePower_samples (s : State) : (losePower s).samples = s.samples := rfl
@[simp] theorem losePower_rawReads (s : State) : (losePower s).rawReads = s.rawReads := rfl
@[simp] theorem losePower_file (s : State) : (losePower s).file = s.file := rfl
@[simp] theorem losePower_outcome (s : State) : (losePower s).outcome = s.outcome := rfl
@[simp] theorem losePower_draws (s : State) : (losePower s).draws = s.draws + 1 := rfl

end Sys2Proof.Machine
end

