-- ==== Sys2Proof/Laws/Ops.lean ====
section
/-! SUPPORT. For each shared operation, what it can do, said once: the commands, a cycle, a rising edge, a sample, a write of the
file. Proofs cite these and unfold none of the operations. -/

namespace Sys2Proof.Machine

/-! ## Commands -/

/-- A command that completes is accepted after the first reset and is NOP, BYTE or CLEAR (R89 to R91, R131, R132). -/
theorem exec_next_cases {i : Instr} {s t : State} (h : exec i s = .next t) :
    s.resetSeen = true ∧
    ((i = .nop ∧ t = s) ∨
     (∃ b, i = .byte b ∧ t = startBusy (s.writeCrc (byteUpdate s.crc b)) Config.byteLatency) ∨
     (i = .clear ∧ t = startBusy (s.writeCrc crcInit) Config.clearLatency)) := by
  cases i <;>
    simp only [exec, execNop, execByte, execClear, execReserved, whenReset, raiseFault] at h <;>
    split at h <;> cases h <;> simp_all

/-- A command that faults raises NotReset before the first reset, and ReservedOp after it (R131, R132). -/
theorem exec_fault_cases {i : Instr} {s : State} {r : Fault} (h : exec i s = .fault r) :
    (s.resetSeen = false ∧ r = .notReset (.command s.cmdWord)) ∨
    (s.resetSeen = true ∧ ∃ w, i = .reserved w ∧ r = .reservedOp w) := by
  cases i <;>
    simp only [exec, execNop, execByte, execClear, execReserved, whenReset, raiseFault] at h <;>
    split at h <;> cases h <;> simp_all

/-- No command is refused. -/
theorem exec_not_refused (i : Instr) (s : State) (r : Refusal) : exec i s ≠ .refused r := by
  cases i <;>
    simp only [exec, execNop, execByte, execClear, execReserved, whenReset, raiseFault] <;>
    split <;> simp

/-! ## A cycle -/

/-- A cycle in which nothing is accepted, after the first reset: nothing while idle; while busy one edge less, or the end of
the busy time (R27). -/
theorem tick_cases {s : State} (h : s.resetSeen = true) :
    (s.busy = false ∧ tick s = s) ∨
    (s.busy = true ∧ ∃ n, s.phase = .working (n + 2) ∧ tick s = s.setSequencer true (.working (n + 1))) ∨
    (s.busy = true ∧ (∀ n, s.phase ≠ .working (n + 2)) ∧ tick s = s.setSequencer false .idle) := by
  unfold tick
  rw [if_pos h]
  cases hb : s.busy
  · simp
  · rcases hp : s.phase with _ | _ | _ | n <;> simp

/-- A cycle before the first reset: the registers stay unspecified (R28). -/
theorem tick_unset {s : State} (h : s.resetSeen = false) : tick s = unspecify s := by simp [tick, h]

/-- A cycle never touches the host, the ports or whether the reset was seen. -/
theorem tick_frame (s : State) :
    (tick s).resetSeen = s.resetSeen ∧ (tick s).rst = s.rst ∧ (tick s).cmdValid = s.cmdValid ∧
    (tick s).cmdWord = s.cmdWord ∧ (tick s).plan = s.plan ∧ (tick s).samples = s.samples ∧
    (tick s).rawReads = s.rawReads ∧ (tick s).file = s.file ∧ (tick s).outcome = s.outcome := by
  cases h : s.resetSeen
  · simp [tick_unset h, h]
  · rcases tick_cases h with ⟨-, e⟩ | ⟨-, n, -, e⟩ | ⟨-, -, e⟩ <;> simp [e, h]

/-! ## A rising edge -/

/-- Everything one rising edge can do, in the order of R135. -/
theorem clockEdge_cases (s : State) :
    (s.rst = true ∧ clockEdge s = .next (applyReset s)) ∨
    (s.rst = false ∧ accepts s = true ∧ clockEdge s = exec (decode s.cmdWord) s) ∨
    (s.rst = false ∧ accepts s = false ∧ clockEdge s = .next (tick s)) := by
  unfold clockEdge
  cases hr : s.rst <;> cases ha : accepts s <;> simp

theorem accepts_drivePins (s : State) (r v : Bool) (w : CmdWord) :
    accepts (s.drivePins r v w) = (!r && v && (!s.busy || !s.resetSeen)) := rfl

/-- With nothing offered an edge is a cycle. -/
theorem idleEdge_eq (s : State) : idleEdge s = .next (tick (s.drivePins false false s.cmdWord)) := by
  rcases clockEdge_cases (s.drivePins false false s.cmdWord) with ⟨h, -⟩ | ⟨-, h, -⟩ | ⟨-, -, h⟩
  · cases h
  · simp [accepts_drivePins] at h
  · exact h

/-- An edge with `rst` = 1 is a reset, whatever is offered (R135 order 1, R150). -/
theorem clockEdge_rst (s : State) (v : Bool) (w : CmdWord) :
    clockEdge (s.drivePins true v w) = .next (applyReset (s.drivePins true v w)) := rfl

/-- An edge at which a command is offered to a block that is idle, or was never reset: the command's own meaning. -/
theorem clockEdge_accepts {s : State} (w : CmdWord) (h : s.busy = false ∨ s.resetSeen = false) :
    accepts (s.drivePins false true w) = true ∧
    clockEdge (s.drivePins false true w) = exec (decode w) (s.drivePins false true w) := by
  have ha : accepts (s.drivePins false true w) = true := by
    rw [accepts_drivePins]; rcases h with h | h <;> simp [h]
  exact ⟨ha, by simp [clockEdge, ha]⟩

/-- An edge at which a command is offered to a busy block: it is not accepted (R155). -/
theorem clockEdge_holds {s : State} (w : CmdWord) (hb : s.busy = true) (hr : s.resetSeen = true) :
    accepts (s.drivePins false true w) = false ∧
    clockEdge (s.drivePins false true w) = .next (tick (s.drivePins false true w)) := by
  have ha : accepts (s.drivePins false true w) = false := by simp [accepts_drivePins, hb, hr]
  exact ⟨ha, by simp [clockEdge, ha]⟩

@[simp] theorem andThen_next (s : State) (f : State → State) : andThen (.next s) f = .next (f s) := rfl
@[simp] theorem andThen_fault (r : Fault) (f : State → State) : andThen (.fault r) f = .fault r := rfl
@[simp] theorem andThen_refused (r : Refusal) (f : State → State) : andThen (.refused r) f = .refused r := rfl

theorem andThen_eq_next {o : Host.Outcome State Fault Refusal} {f : State → State} {t : State}
    (h : andThen o f = .next t) : ∃ u, o = .next u ∧ t = f u := by
  cases o <;> simp_all

theorem andThen_eq_fault {o : Host.Outcome State Fault Refusal} {f : State → State} {r : Fault} :
    andThen o f = .fault r ↔ o = .fault r := by
  cases o <;> simp

theorem andThen_eq_refused {o : Host.Outcome State Fault Refusal} {f : State → State} {r : Refusal} :
    andThen o f = .refused r ↔ o = .refused r := by
  cases o <;> simp

/-! ## Samples and file writes -/

/-- Everything a SAMPLE can do: NotReset, a cycle of waiting, or the value of `crc` (R66, R131). -/
theorem sampleThen_cases (next : CrcWord → List HostAction) (s : State) :
    (s.resetSeen = false ∧ sampleThen next s = .fault (.notReset .sample)) ∨
    (s.resetSeen = true ∧ s.busy = true ∧ sampleThen next s = .next (tick (s.drivePins false false s.cmdWord))) ∨
    (s.resetSeen = true ∧ s.busy = false ∧ sampleThen next s = .next ((s.recordSample s.crc).setPlan (next s.crc))) := by
  unfold sampleThen whenSampled
  cases hr : s.resetSeen <;> cases hb : s.busy <;> simp [cmdReady, crcOut, hb, raiseFault, idleEdge_eq]

/-- Everything a write of the file by the host can do: the bytes are written, or the procedure ends with IoError (R121). -/
theorem writeThen_cases (a n v : Nat) (rest : List HostAction) (next : State → Host.Outcome State Fault Refusal) (s : State) :
    (a + n ≤ s.file.length ∧
      writeThen a n v rest next s = next (s.setFile { s.file with cells := memWrite s.file.cells a n v })) ∨
    (s.file.length < a + n ∧ writeThen a n v rest next s = .next ((s.setOutcome (some .ioError)).setPlan rest)) := by
  unfold writeThen
  rcases fileWrite_cases s.file a n v with ⟨h, e⟩ | ⟨h, e⟩ <;> rw [e]
  · exact .inl ⟨h, rfl⟩
  · exact .inr ⟨h, rfl⟩

end Sys2Proof.Machine
end

