-- ==== Sys2Proof/Laws/Step.lean ====
section
/-! SUPPORT. The step by the action at the head of the host's program, one lemma for each action; and what a step can do, said
once (`StepNext`), from which invariants follow without unfolding the step. -/

namespace Sys2Proof.Machine

theorem step_nil {s : State} (h : s.plan = []) : step s = idleEdge s := by simp [step, hostStep, h]

theorem step_issue {s : State} {w : CmdWord} {rest : List HostAction} (h : s.plan = .issue w :: rest) :
    step s = hostIssue w rest s := by simp [step, hostStep, h]

theorem step_drive {s : State} {r v : Bool} {w : CmdWord} {rest : List HostAction} (h : s.plan = .drive r v w :: rest) :
    step s = hostDrive r v w rest s := by simp [step, hostStep, h]

theorem step_wait {s : State} {rest : List HostAction} (h : s.plan = .wait :: rest) :
    step s = hostWait rest s := by simp [step, hostStep, h]

theorem step_sample {s : State} {rest : List HostAction} (h : s.plan = .sample :: rest) :
    step s = hostSample rest s := by simp [step, hostStep, h]

theorem step_readRaw {s : State} {rest : List HostAction} (h : s.plan = .readRaw :: rest) :
    step s = hostReadRaw rest s := by simp [step, hostStep, h]

theorem step_reset {s : State} {rest : List HostAction} (h : s.plan = .reset :: rest) :
    step s = hostReset rest s := by simp [step, hostStep, h]

theorem step_losePower {s : State} {rest : List HostAction} (h : s.plan = .losePower :: rest) :
    step s = hostLosePower rest s := by simp [step, hostStep, h]

theorem step_memWrite {s : State} {a n v : Nat} {rest : List HostAction} (h : s.plan = .memWrite a n v :: rest) :
    step s = hostMemWrite a n v rest s := by simp [step, hostStep, h]

theorem step_usageError {s : State} {rest : List HostAction} (h : s.plan = .usageError :: rest) :
    step s = hostUsageError rest s := by simp [step, hostStep, h]

theorem step_patch {s : State} {start : MessageStart} {failure : Option IoPoint} {rest : List HostAction} (h : s.plan = .patch start failure :: rest) :
    step s = hostPatch start failure rest s := by simp [step, hostStep, h]

theorem step_patchSelector {s : State} {start : MessageStart} {failure : Option IoPoint} {rest : List HostAction} (h : s.plan = .patchSelector start failure :: rest) :
    step s = hostPatchSelector start failure rest s := by simp [step, hostStep, h]

theorem step_patchPayload {s : State} {start : MessageStart} {failure : Option IoPoint} {rest : List HostAction} (h : s.plan = .patchPayload start failure :: rest) :
    step s = hostPatchPayload start failure rest s := by simp [step, hostStep, h]

theorem step_patchSample {s : State} {failure : Option IoPoint} {rest : List HostAction} (h : s.plan = .patchSample failure :: rest) :
    step s = hostPatchSample failure rest s := by simp [step, hostStep, h]

theorem step_patchField {s : State} {c : CrcWord} {failure : Option IoPoint} {rest : List HostAction} (h : s.plan = .patchField c failure :: rest) :
    step s = hostPatchField c failure rest s := by simp [step, hostStep, h]

/-- An issued command is accepted by a block that is idle or was never reset: its meaning, and the host goes on (R67). -/
theorem hostIssue_accepted {s : State} (w : CmdWord) (rest : List HostAction) (h : s.busy = false ∨ s.resetSeen = false) :
    hostIssue w rest s = andThen (exec (decode w) (s.drivePins false true w)) fun t => t.setPlan rest := by
  obtain ⟨ha, he⟩ := clockEdge_accepts w h
  simp [hostIssue, ha, he]

/-- An issued command is held by a busy block (R155). -/
theorem hostIssue_held {s : State} (w : CmdWord) (rest : List HostAction) (hb : s.busy = true) (hr : s.resetSeen = true) :
    hostIssue w rest s = .next (tick (s.drivePins false true w)) := by
  obtain ⟨ha, he⟩ := clockEdge_holds w hb hr
  simp [hostIssue, ha, he]

/-- Everything a one-edge drive of the ports can do (R26, R135, R155). -/
theorem hostDrive_cases (r v : Bool) (w : CmdWord) (rest : List HostAction) (s : State) :
    (r = true ∧ hostDrive r v w rest s = .next ((applyReset (s.drivePins true v w)).setPlan rest)) ∨
    (r = false ∧ v = true ∧ (s.busy = false ∨ s.resetSeen = false) ∧
      hostDrive r v w rest s = andThen (exec (decode w) (s.drivePins false true w)) fun t => t.setPlan rest) ∨
    (r = false ∧ (v = true → s.busy = true ∧ s.resetSeen = true) ∧
      hostDrive r v w rest s = .next ((tick (s.drivePins false v w)).setPlan rest)) := by
  unfold hostDrive
  rcases clockEdge_cases (s.drivePins r v w) with ⟨h, e⟩ | ⟨h, ha, e⟩ | ⟨h, ha, e⟩ <;> rw [e]
  · obtain rfl : r = true := h
    exact .inl ⟨rfl, rfl⟩
  · obtain rfl : r = false := h
    rw [accepts_drivePins] at ha
    cases v
    · simp at ha
    · refine .inr (.inl ⟨rfl, rfl, ?_, rfl⟩)
      cases hb : s.busy <;> simp_all
  · obtain rfl : r = false := h
    refine .inr (.inr ⟨rfl, ?_, rfl⟩)
    rintro rfl
    cases hb : s.busy <;> simp_all [accepts_drivePins]

@[simp] theorem State.setPlan_self (s : State) : s.setPlan s.plan = s := rfl

/-- A write of the file by the host, followed by anything that keeps `P` of the state it is given, keeps `P`. -/
theorem writeThen_keeps {P : State → Prop} {a n v : Nat} {rest : List HostAction}
    {next : State → Host.Outcome State Fault Refusal} {s : State}
    (hio : P ((s.setOutcome (some .ioError)).setPlan rest))
    (hnext : a + n ≤ s.file.length →
      ∃ t, next (s.setFile { s.file with cells := memWrite s.file.cells a n v }) = .next t ∧ P t) :
    ∃ t, writeThen a n v rest next s = .next t ∧ P t := by
  rcases writeThen_cases a n v rest next s with ⟨h, e⟩ | ⟨-, e⟩ <;> rw [e]
  · exact hnext h
  · exact ⟨_, rfl, hio⟩

/-- What a host step on the file or the procedure keeps: the block, its ports, the samples, the file's length and form. -/
def fileStepKeeps (s t : State) : Prop :=
  sameBlock s t ∧ t.samples = s.samples ∧ t.rawReads = s.rawReads ∧ t.file.length = s.file.length ∧
  (s.file.wf = true → t.file.wf = true)

/-- A host step on the file or the procedure always ends in a next state, and keeps the block (R141). -/
theorem fileStep_next {s : State} {a : HostAction} {rest : List HostAction} (h : s.plan = a :: rest)
    (ha : fileOnly a = true) : ∃ t, step s = .next t ∧ fileStepKeeps s t := by
  have same : ∀ (o : Option HostOutcome) (p : List HostAction), fileStepKeeps s ((s.setOutcome o).setPlan p) := fun _ _ =>
    ⟨⟨rfl, rfl, rfl, rfl, rfl, rfl, rfl, rfl⟩, rfl, rfl, rfl, id⟩
  have wrote : ∀ {a n : Nat} (v : Nat) (o : Option HostOutcome) (p : List HostAction), a + n ≤ s.file.length →
      fileStepKeeps s (((s.setFile { s.file with cells := memWrite s.file.cells a n v }).setOutcome o).setPlan p) :=
    fun v _ _ hl => ⟨⟨rfl, rfl, rfl, rfl, rfl, rfl, rfl, rfl⟩, rfl, rfl, rfl, fun hf => memWrite_file_wf v hf hl⟩
  cases a with
  | memWrite a n v => rw [step_memWrite h]; exact writeThen_keeps (same _ _) fun hl => ⟨_, rfl, wrote v s.outcome _ hl⟩
  | usageError => rw [step_usageError h]; exact ⟨_, rfl, same _ _⟩
  | patch start failure => rw [step_patch h, hostPatch]; split <;> exact ⟨_, rfl, same _ _⟩
  | patchSelector start failure =>
    rw [step_patchSelector h, hostPatchSelector]
    split
    · exact ⟨_, rfl, same _ _⟩
    · exact writeThen_keeps (same _ _) fun hl => ⟨_, rfl, wrote _ s.outcome _ hl⟩
  | patchPayload start failure =>
    rw [step_patchPayload h, hostPatchPayload]
    split
    · exact ⟨_, rfl, same _ _⟩
    · exact ⟨_, rfl, same s.outcome _⟩
  | patchField c failure =>
    rw [step_patchField h, hostPatchField]
    split
    · exact ⟨_, rfl, same _ _⟩
    · exact writeThen_keeps (same _ _) fun hl => ⟨_, rfl, wrote _ _ _ hl⟩
  | _ => cases ha

/-- Everything a step that ends in a next state can do. -/
inductive StepNext (s t : State) : Prop where
  /-- A cycle of the block in which nothing is accepted, the host going on or holding. -/
  | cycle (v : Bool) (w : CmdWord) (p : List HostAction) (hp : p = s.plan ∨ ∃ a, s.plan = a :: p ∧ blockOnly a = true)
      (e : t = (tick (s.drivePins false v w)).setPlan p)
  /-- A reset. -/
  | reset (a : HostAction) (v : Bool) (w : CmdWord) (p : List HostAction) (hp : s.plan = a :: p) (ha : drivesReset a = true)
      (e : t = (applyReset (s.drivePins true v w)).setPlan p)
  /-- A command accepted after the first reset. -/
  | command (a : HostAction) (w : CmdWord) (p : List HostAction) (u : State) (hp : s.plan = a :: p)
      (ha : offeredWord a = some w) (hb : s.busy = false) (he : exec (decode w) (s.drivePins false true w) = .next u)
      (e : t = u.setPlan p)
  /-- A SAMPLE of the idle block. -/
  | sampled (a : HostAction) (p q : List HostAction) (hp : s.plan = a :: p) (ha : samplesPort a = true) (hb : s.busy = false)
      (hr : s.resetSeen = true) (e : t = (s.recordSample s.crc).setPlan q)
  /-- A raw read of the idle block. -/
  | readIdle (p : List HostAction) (hp : s.plan = .readRaw :: p) (hb : s.busy = false) (hr : s.resetSeen = true)
      (e : t = (s.recordRawRead s.crc).setPlan p)
  /-- A raw read of the busy block. -/
  | readBusy (p : List HostAction) (hp : s.plan = .readRaw :: p) (hb : s.busy = true) (hr : s.resetSeen = true)
      (e : t = ((s.recordRawRead (Config.busyOutput s.draws)).advanceDraws).setPlan p)
  /-- Loss of power. -/
  | powerLost (p : List HostAction) (hp : s.plan = .losePower :: p) (e : t = (losePower s).setPlan p)
  /-- A WAIT that ends. -/
  | waited (p : List HostAction) (hp : s.plan = .wait :: p) (hb : s.busy = false) (e : t = s.setPlan p)
  /-- A step on the file or the procedure. -/
  | file (a : HostAction) (p : List HostAction) (hp : s.plan = a :: p) (ha : fileOnly a = true) (e : fileStepKeeps s t)

theorem setPlan_tick_drivePins (s : State) (v : Bool) (w : CmdWord) :
    (tick (s.drivePins false v w)).setPlan s.plan = tick (s.drivePins false v w) := by
  have h := (tick_frame (s.drivePins false v w)).2.2.2.2.1
  rw [show s.plan = (tick (s.drivePins false v w)).plan from h.symm, State.setPlan_self]

theorem StepNext.hold {s : State} (v : Bool) (w : CmdWord) : StepNext s (tick (s.drivePins false v w)) :=
  .cycle v w s.plan (.inl rfl) (setPlan_tick_drivePins s v w).symm

theorem StepNext.ofSample {s t : State} {a : HostAction} {rest : List HostAction} {next : CrcWord → List HostAction}
    (hp : s.plan = a :: rest) (ha : samplesPort a = true) (h : sampleThen next s = .next t) : StepNext s t := by
  rcases sampleThen_cases next s with ⟨-, e⟩ | ⟨-, -, e⟩ | ⟨hr, hb, e⟩ <;> rw [e] at h <;> cases h
  · exact .hold _ _
  · exact .sampled a rest _ hp ha hb hr rfl

theorem StepNext.ofDrive {s t : State} {a : HostAction} {rest : List HostAction} {r v : Bool} {w : CmdWord}
    (hp : s.plan = a :: rest) (hb : blockOnly a = true) (hr : r = true → drivesReset a = true)
    (ho : r = false → v = true → offeredWord a = some w) (h : hostDrive r v w rest s = .next t) : StepNext s t := by
  rcases hostDrive_cases r v w rest s with ⟨h1, e⟩ | ⟨h1, h2, h3, e⟩ | ⟨-, -, e⟩ <;> rw [e] at h
  · cases h; exact .reset a _ _ rest hp (hr h1) rfl
  · obtain ⟨u, hu, rfl⟩ := andThen_eq_next h
    have hs : s.resetSeen = true := (exec_next_cases hu).1
    exact .command a w rest u hp (ho h1 h2) (h3.resolve_right (by simp [hs])) hu rfl
  · cases h; exact .cycle v w rest (.inr ⟨a, hp, hb⟩) rfl

/-- What a step can do, said once. -/
theorem step_next {s t : State} (h : step s = .next t) : StepNext s t := by
  cases hp : s.plan with
  | nil => rw [step_nil hp, idleEdge_eq] at h; cases h; exact .hold _ _
  | cons a rest =>
    cases a with
    | issue w =>
      rw [step_issue hp] at h
      by_cases hb : s.busy = true ∧ s.resetSeen = true
      · rw [hostIssue_held w rest hb.1 hb.2] at h; cases h; exact .hold _ _
      · have hacc : s.busy = false ∨ s.resetSeen = false := by
          cases h1 : s.busy <;> cases h2 : s.resetSeen <;> simp_all
        rw [hostIssue_accepted w rest hacc] at h
        obtain ⟨u, hu, rfl⟩ := andThen_eq_next h
        have hs : s.resetSeen = true := (exec_next_cases hu).1
        exact .command _ w rest u hp rfl (hacc.resolve_right (by simp [hs])) hu rfl
    | drive r v w =>
      rw [step_drive hp] at h
      exact .ofDrive hp rfl (by rintro rfl; rfl) (by rintro rfl rfl; rfl) h
    | wait =>
      rw [step_wait hp, hostWait] at h
      cases hb : s.busy <;> simp [cmdReady, hb, idleEdge_eq] at h <;> subst h
      · exact .waited rest hp hb rfl
      · exact .hold _ _
    | sample => rw [step_sample hp] at h; exact .ofSample hp rfl h
    | readRaw =>
      rw [step_readRaw hp, hostReadRaw, whenSampled] at h
      cases hr : s.resetSeen <;> cases hb : s.busy <;> simp [raiseFault, cmdReady, crcOut, hr, hb] at h <;> subst h
      · exact .readIdle rest hp hb hr rfl
      · exact .readBusy rest hp hb hr rfl
    | reset =>
      rw [step_reset hp] at h
      exact .ofDrive hp rfl (fun _ => rfl) (by rintro h; cases h) h
    | losePower => rw [step_losePower hp] at h; cases h; exact .powerLost rest hp rfl
    | patchSample failure => rw [step_patchSample hp] at h; exact .ofSample hp rfl h
    | _ =>
      obtain ⟨u, hu, hk⟩ := fileStep_next hp rfl
      rw [hu] at h; cases h
      exact .file _ rest hp rfl hk

/-- What a step puts before the rest of the program is made of these: actions of the patch procedure, RESET, CLEAR and BYTEs
(R116). -/
def putByPatch (b : HostAction) : Prop :=
  b ≠ .losePower ∧ ∀ w, offeredWord b = some w → w = encode .clear ∨ ∃ x : Byte, w = encode (.byte x)

theorem putByPatch_quiet {b : HostAction} (h : b ≠ .losePower) (ho : offeredWord b = none) : putByPatch b :=
  ⟨h, fun w hw => by rw [ho] at hw; cases hw⟩

theorem putByPatch_start (start : MessageStart) : putByPatch (startAction start) := by
  cases start
  · exact putByPatch_quiet nofun rfl
  · exact ⟨nofun, fun w hw => .inl (Option.some.inj hw).symm⟩

theorem putByPatch_msg (m : List Byte) : ∀ b ∈ msgActions m, putByPatch b := by
  intro b hb
  obtain ⟨x, -, rfl⟩ := List.mem_map.1 hb
  exact ⟨nofun, fun w hw => .inr ⟨x, (Option.some.inj hw).symm⟩⟩

/-- The program of `t` is `rest` after actions of the patch procedure. -/
def goesOnTo (rest : List HostAction) (t : State) : Prop := ∃ pre, t.plan = pre ++ rest ∧ ∀ b ∈ pre, putByPatch b

theorem goesOnTo_rest {rest : List HostAction} {t : State} (h : t.plan = rest) : goesOnTo rest t := ⟨[], h, nofun⟩

theorem goesOnTo_cons {b : HostAction} {rest : List HostAction} {t : State} (h : t.plan = b :: rest) (hb : putByPatch b) :
    goesOnTo rest t := ⟨[b], h, by simpa using hb⟩

/-- A host step on the file or the procedure goes on in the program. -/
theorem fileStep_goesOn {s t : State} {a : HostAction} {rest : List HostAction} (hp : s.plan = a :: rest)
    (ha : fileOnly a = true) (h : step s = .next t) : goesOnTo rest t := by
  have write : ∀ {a n v : Nat} {next : State → Host.Outcome State Fault Refusal},
      (∀ f u, next (s.setFile f) = .next u → goesOnTo rest u) → writeThen a n v rest next s = .next t → goesOnTo rest t := by
    intro a n v next hn h
    rcases writeThen_cases a n v rest next s with ⟨-, e⟩ | ⟨-, e⟩ <;> rw [e] at h
    · exact hn _ _ h
    · cases h; exact goesOnTo_rest rfl
  cases a with
  | memWrite a n v =>
    rw [step_memWrite hp] at h
    exact write (fun f u hu => by cases hu; exact goesOnTo_rest rfl) h
  | usageError => rw [step_usageError hp] at h; cases h; exact goesOnTo_rest rfl
  | patch start failure =>
    rw [step_patch hp, hostPatch] at h
    split at h <;> cases h
    · exact goesOnTo_rest rfl
    · exact goesOnTo_cons rfl (putByPatch_quiet nofun rfl)
  | patchSelector start failure =>
    rw [step_patchSelector hp, hostPatchSelector] at h
    split at h
    · cases h; exact goesOnTo_rest rfl
    · exact write (fun f u hu => by cases hu; exact goesOnTo_cons rfl (putByPatch_quiet nofun rfl)) h
  | patchPayload start failure =>
    rw [step_patchPayload hp, hostPatchPayload] at h
    split at h <;> cases h
    · exact goesOnTo_rest rfl
    · refine ⟨startAction start :: (msgActions (payload s.file) ++ [.patchSample failure]), by simp, ?_⟩
      simp only [List.forall_mem_cons, List.forall_mem_append]
      exact ⟨putByPatch_start start, putByPatch_msg _, putByPatch_quiet nofun rfl, nofun⟩
  | patchField c failure =>
    rw [step_patchField hp, hostPatchField] at h
    split at h
    · cases h; exact goesOnTo_rest rfl
    · exact write (fun f u hu => by cases hu; exact goesOnTo_rest rfl) h
  | _ => cases ha

/-- What a step leaves of the program: all of it, or the rest after actions of the patch procedure. -/
theorem step_goesOn {s t : State} {a : HostAction} {rest : List HostAction} (hp : s.plan = a :: rest) (h : step s = .next t) :
    t.plan = s.plan ∨ goesOnTo rest t := by
  have tail : ∀ {b : HostAction} {p : List HostAction}, s.plan = b :: p → p = rest := fun e => by
    rw [hp] at e; exact (List.cons.inj e).2.symm
  rcases step_next h with ⟨v, w, p, rfl | ⟨b, hb, -⟩, rfl⟩ | ⟨b, v, w, p, hb, -, rfl⟩ | ⟨b, w, p, u, hb, -, -, -, rfl⟩ |
    ⟨b, p, q, hb, hs, hi, hr, -⟩ | ⟨p, hb, -, -, rfl⟩ | ⟨p, hb, -, -, rfl⟩ | ⟨p, hb, rfl⟩ | ⟨p, hb, -, rfl⟩ | ⟨b, p, hb, ha, -⟩
  · exact .inl rfl
  · exact .inr (goesOnTo_rest (tail hb))
  · exact .inr (goesOnTo_rest (tail hb))
  · exact .inr (goesOnTo_rest (tail hb))
  · refine .inr ?_
    have sampled : ∀ {next : CrcWord → List HostAction}, sampleThen next s = .next t → t.plan = next s.crc := by
      intro next e
      rcases sampleThen_cases next s with ⟨h1, -⟩ | ⟨-, h1, -⟩ | ⟨-, -, h1⟩
      · simp [hr] at h1
      · simp [hi] at h1
      · rw [h1] at e; cases e; rfl
    cases b with
    | sample => rw [step_sample hb] at h; exact goesOnTo_rest ((sampled h).trans (tail hb))
    | readRaw =>
      rw [step_readRaw hb, hostReadRaw, whenSampled, if_pos hr] at h
      cases h; exact goesOnTo_rest (tail hb)
    | patchSample failure =>
      rw [step_patchSample hb] at h
      exact goesOnTo_cons (b := .patchField s.crc failure) (by rw [sampled h, tail hb]) (putByPatch_quiet nofun rfl)
    | _ => cases hs
  · exact .inr (goesOnTo_rest (tail hb))
  · exact .inr (goesOnTo_rest (tail hb))
  · exact .inr (goesOnTo_rest (tail hb))
  · exact .inr (goesOnTo_rest (tail hb))
  · obtain rfl := tail hb
    exact .inr (fileStep_goesOn hb ha h)

end Sys2Proof.Machine
end

