-- ==== Sys2Proof/Laws/Hold.lean ====
section
/-! SUPPORT. A hold: while the block is busy, a host action that waits lets cycles pass, and the block becomes idle (R27, R155). -/

namespace Sys2Proof.Machine

theorem tick_crc {s : State} (h : s.resetSeen = true) : (tick s).crc = s.crc := by
  rcases tick_cases h with ⟨-, e⟩ | ⟨-, n, -, e⟩ | ⟨-, -, e⟩ <;> simp [e]

theorem tick_draws {s : State} (h : s.resetSeen = true) : (tick s).draws = s.draws := by
  rcases tick_cases h with ⟨-, e⟩ | ⟨-, n, -, e⟩ | ⟨-, -, e⟩ <;> simp [e]

/-- The program of `s` waits while the block is busy: each step drives `cmd_valid` = `v` and `cmd_word` = `w` for a cycle. -/
def holdsWith (v : Bool) (w : CmdWord) (s : State) : Prop :=
  (v = false → s.cmdWord = w) ∧
  ∀ u : State, u.plan = s.plan → u.busy = true → u.resetSeen = true → (v = false → u.cmdWord = w) →
    step u = .next (tick (u.drivePins false v w))

theorem holds_issue {s : State} {w : CmdWord} {rest : List HostAction} (h : s.plan = .issue w :: rest) : holdsWith true w s :=
  ⟨nofun, fun u hp hb hr _ => by rw [step_issue (hp.trans h), hostIssue_held w rest hb hr]⟩

theorem holds_nil {s : State} (h : s.plan = []) : holdsWith false s.cmdWord s :=
  ⟨fun _ => rfl, fun u hp _ _ hw => by rw [step_nil (hp.trans h), idleEdge_eq, hw rfl]⟩

theorem holds_wait {s : State} {rest : List HostAction} (h : s.plan = .wait :: rest) : holdsWith false s.cmdWord s :=
  ⟨fun _ => rfl, fun u hp hb _ hw => by
    rw [step_wait (hp.trans h), hostWait, if_neg (by simp [cmdReady, hb]), idleEdge_eq, hw rfl]⟩

theorem sampleThen_held {next : CrcWord → List HostAction} {s : State} (hb : s.busy = true) (hr : s.resetSeen = true) :
    sampleThen next s = .next (tick (s.drivePins false false s.cmdWord)) := by
  rcases sampleThen_cases next s with ⟨h, -⟩ | ⟨-, -, e⟩ | ⟨-, h, -⟩
  · simp [hr] at h
  · exact e
  · simp [hb] at h

theorem holds_sample {s : State} {rest : List HostAction} (h : s.plan = .sample :: rest) : holdsWith false s.cmdWord s :=
  ⟨fun _ => rfl, fun u hp hb hr hw => by rw [step_sample (hp.trans h), hostSample, sampleThen_held hb hr, hw rfl]⟩

theorem holds_patchSample {s : State} {failure : Option IoPoint} {rest : List HostAction}
    (h : s.plan = .patchSample failure :: rest) : holdsWith false s.cmdWord s :=
  ⟨fun _ => rfl, fun u hp hb hr hw => by rw [step_patchSample (hp.trans h), hostPatchSample, sampleThen_held hb hr, hw rfl]⟩

/-- A hold runs for as many cycles as the sequencer has edges left, the block busy before each of them. -/
theorem hold_run {v : Bool} {w : CmdWord} : ∀ (n : Nat) {s : State}, holdsWith v w s → s.resetSeen = true → s.busy = true →
    s.phase = .working (n + 1) →
    (∀ k, k ≤ n → ∃ t, reachesIn k s t ∧ t.busy = true ∧ t.crc = s.crc) ∧
    reachesIn (n + 1) s ((s.drivePins false v w).setSequencer false .idle)
  | 0, s, hh, hr, hb, hp => by
    refine ⟨fun k hk => ?_, reachesIn_succ (hh.2 s rfl hb hr hh.1) ?_⟩
    · obtain rfl : k = 0 := by omega
      exact ⟨s, rfl, hb, rfl⟩
    · rcases tick_cases (s := s.drivePins false v w) hr with ⟨h, -⟩ | ⟨-, m, h, -⟩ | ⟨-, -, e⟩
      · simp [hb] at h
      · simp [hp] at h
      · rw [e]; rfl
  | n + 1, s, hh, hr, hb, hp => by
    have e : tick (s.drivePins false v w) = (s.drivePins false v w).setSequencer true (.working (n + 1)) := by
      rcases tick_cases (s := s.drivePins false v w) hr with ⟨h, -⟩ | ⟨-, m, h, e⟩ | ⟨-, h, -⟩
      · simp [hb] at h
      · simp only [State.drivePins_phase, hp, Phase.working.injEq, Nat.add_right_cancel_iff] at h
        rw [e, h]
      · exact absurd hp (h n)
    have st := hh.2 s rfl hb hr hh.1
    rw [e] at st
    obtain ⟨hbefore, hend⟩ :=
      hold_run n (s := (s.drivePins false v w).setSequencer true (.working (n + 1))) ⟨fun _ => rfl, hh.2⟩ hr rfl rfl
    refine ⟨fun k hk => ?_, reachesIn_succ st hend⟩
    cases k with
    | zero => exact ⟨s, rfl, hb, rfl⟩
    | succ k =>
      obtain ⟨t, ht, hrest⟩ := hbefore k (by omega)
      exact ⟨t, reachesIn_succ st ht, hrest⟩

/-- A hold ends, whatever the sequencer holds, with the block idle and the host where it was. -/
theorem hold_ends {v : Bool} {w : CmdWord} {s : State} (hh : holdsWith v w s) (hr : s.resetSeen = true) (hb : s.busy = true) :
    reaches s ((s.drivePins false v w).setSequencer false .idle) := by
  have last : (∀ n, s.phase ≠ .working (n + 2)) → reaches s ((s.drivePins false v w).setSequencer false .idle) := fun h => by
    refine reaches_step (hh.2 s rfl hb hr hh.1) ?_
    rcases tick_cases (s := s.drivePins false v w) hr with ⟨h', -⟩ | ⟨-, n, h', -⟩ | ⟨-, -, e⟩
    · simp [hb] at h'
    · exact absurd h' (h n)
    · rw [e]; exact reaches_refl _
  rcases hp : s.phase with _ | _ | n
  · exact last (by simp [hp])
  · exact last (by simp [hp])
  · exact ⟨_, (hold_run n hh hr hb hp).2⟩

end Sys2Proof.Machine
end

