-- ==== Sys2Proof/Laws/PerInstr.lean ====
section
/-! SUPPORT. A fact about every command as syntax, one lemma for each constructor: its word matches the row of the opcode map that
stands for it (30_encoding.md R61). -/

namespace Sys2Proof.Laws.WordMatchesRow

/-- `w & mask(X) = match(X)` for the word of the command X (R61). -/
def Statement (i : Instr) : Prop := i.wellFormed = true → encode i &&& opMask = opMatch i

theorem nop : Statement .nop := by intro _; decide

theorem byte (b : Byte) : Statement (.byte b) := by
  intro _
  revert b
  decide

theorem clear : Statement .clear := by intro _; decide

theorem reserved (w : CmdWord) : Statement (.reserved w) := by
  intro h
  simpa [Instr.wellFormed, encode, opMask, opMatch] using h

end Sys2Proof.Laws.WordMatchesRow
end

