-- ==== Sys2Proof/Tests/Slice0.lean ====
section
/-! SUPPORT. Tests. Expected values come from spec/95_test_vectors.md (its section stands with each group), or from the rule cited. The
witnesses show states that meet the hypotheses of each statement. -/

namespace Sys2Proof.Machine

/-! ## Helpers -/

/-- The machine after reset with `crc` and a program. -/
def testIdle (c : CrcWord) (p : List HostAction) : State := (State.reset.writeCrc c).setPlan p

/-- The same, busy with `n` edges left. -/
def testBusy (n : Nat) (c : CrcWord) (p : List HostAction) : State := startBusy (testIdle c p) n

/-- The same, before the first reset. -/
def testUnset (p : List HostAction) : State := (testIdle 0 p).setResetSeen false

/-- A field of the next state, none where there is no next state. -/
def after {α : Type} (o : Host.Outcome State Fault Refusal) (f : State → α) : Option α :=
  match o with
  | .next t => some (f t)
  | _ => none

/-- The fault of a step, none where it has none. -/
def faultOf (o : Host.Outcome State Fault Refusal) : Option Fault :=
  match o with
  | .fault r => some r
  | _ => none

/-- A file of 22634 zero bytes, the shortest that can be patched (R115). -/
def testFile : ProfileFile := { length := 22634, cells := [] }

/-! ## WellFormed (R64) -/

theorem test_reserved_with_byte_op_is_ill_formed : (Instr.reserved 0x101).wellFormed = false := by decide
theorem test_reserved_word_is_well_formed : (Instr.reserved 0x3A5).wellFormed = true := by decide

/-! ## Decoding: words written out bit by bit from R60 and R61 -/

theorem test_decode_nop_zero : decode 0b0000000000#10 = .nop := by decide
theorem test_decode_nop_data_ignored : decode 0b0011111111#10 = .nop := by decide
theorem test_decode_byte_zero : decode 0b0100000000#10 = .byte 0x00 := by decide
theorem test_decode_byte_two : decode 0b0100000010#10 = .byte 0x02 := by decide
theorem test_decode_byte_ff : decode 0b0111111111#10 = .byte 0xFF := by decide
theorem test_decode_clear_zero : decode 0b1000000000#10 = .clear := by decide
theorem test_decode_clear_data_ignored : decode 0b1010101011#10 = .clear := by decide
theorem test_decode_reserved_low : decode 0b1100000000#10 = .reserved 0x300 := by decide
theorem test_decode_reserved_high : decode 0b1111111111#10 = .reserved 0x3FF := by decide
theorem test_encode_byte_31 : encode (.byte 0x31) = 0x131 := by decide
theorem test_table_word_byte : decodeTableWord 16 0x102 = some (.byte 0x02) := by decide
theorem test_table_word_too_wide : decodeTableWord 16 0x402 = none := by decide
theorem test_decode_number_too_wide : decodeNumber 1024 = .error (.widerThanTenBits 1024) := by decide

/-! ## Arithmetic (95_test_vectors.md 2.1 to 2.5) -/

theorem test_nibble_round_abcd_3 : nibbleRound 0xABCD 0x3 = 0x2DF9 := by decide
theorem test_nibble_round_truncates : nibbleRound 0x0FFF 0x0 = 0xFFF0 := by decide
theorem test_nibble_rounds_of_1234 : (List.range 16).map (fun n => nibbleRound 0x1234 (BitVec.ofNat 4 n)) =
    [0x3361, 0x2340, 0x1323, 0x0302, 0x73E5, 0x63C4, 0x53A7, 0x4386, 0xB269, 0xA248, 0x922B, 0x820A, 0xF2ED, 0xE2CC, 0xD2AF,
     0xC28E] := by decide
theorem test_byte_update_1021_02 : byteUpdate 0x1021 0x02 = 0x1373 := by decide
theorem test_byte_update_8000_00 : byteUpdate 0x8000 0x00 = 0x9188 := by decide
theorem test_byte_update_abcd_12 : byteUpdate 0xABCD 0x12 = 0xFBF2 := by decide
theorem test_crc_010203 : messageCrc [0x01, 0x02, 0x03] = 0x6131 := by decide
theorem test_crc_1234 : messageCrc [0x31, 0x32, 0x33, 0x34] = 0xD789 := by decide
theorem test_crc_continues_with_56789 : [0x35, 0x36, 0x37, 0x38, 0x39].foldl byteUpdate 0xD789 = 0x31C3 := by decide
theorem test_crc_ffffffff : messageCrc [0xFF, 0xFF, 0xFF, 0xFF] = 0x99CF := by decide
theorem test_serial_form_of_5a : serialSteps 8 (0x0000 ^^^ (0x5A <<< 8)) = 0xFBBF := by decide

/-! ## One step each (95_test_vectors.md 2.7, 2.8) -/

theorem test_step_nop_keeps_crc : after (step ((testIdle 0x1373 []).withFetchWord 16 0x000)) (·.crc) = some 0x1373 := by decide
theorem test_step_nop_never_busy : after (step ((testIdle 0x1373 []).withFetchWord 16 0x0FF)) (·.busy) = some false := by decide
theorem test_step_byte_ff : after (step ((testIdle 0x1021 []).withFetchWord 16 0x1FF)) (·.crc) = some 0x2DC1 := by decide
theorem test_step_byte_sets_busy : after (step (State.reset.withFetchWord 16 0x101)) (·.busy) = some true := by decide
theorem test_step_clear_data_ignored : after (step ((testIdle 0x6131 []).withFetchWord 16 0x2AB)) (·.crc) = some 0x0000 := by decide
theorem test_step_clear_sets_busy : after (step (State.reset.withFetchWord 16 0x200)) (·.busy) = some true := by decide
theorem test_step_reserved_faults :
    faultOf (step ((testIdle 0x6131 []).withFetchWord 16 0x3A5)) = some (.reservedOp 0x3A5) := by decide
theorem test_unset_byte_faults : faultOf (step (testUnset [.issue 0x101])) = some (.notReset (.command 0x101)) := by decide
theorem test_unset_reserved_is_not_reset :
    faultOf (step (testUnset [.issue 0x300])) = some (.notReset (.command 0x300)) := by decide
theorem test_unset_sample_faults : faultOf (step (testUnset [.sample])) = some (.notReset .sample) := by decide
theorem test_unset_raw_read_faults : faultOf (step (testUnset [.readRaw])) = some (.notReset .sample) := by decide
theorem test_reset_beats_command : after (step (testIdle 0x1021 [.drive true true 0x101])) (·.crc) = some 0x0000 := by decide
theorem test_reset_abandons_command : after (step (testBusy 3 0x1021 [.reset])) (fun t => (t.busy, t.phase)) =
    some (false, .idle) := by decide
theorem test_busy_command_is_held : after (step (testBusy 2 0x1021 [.issue 0x102])) (fun t => (t.plan, t.crc, t.phase)) =
    some ([.issue 0x102], 0x1021, .working 1) := by decide
theorem test_busy_falls_on_last_edge : after (step (testBusy 1 0x1021 [.wait])) (fun t => (t.busy, t.plan)) =
    some (false, [.wait]) := by decide
theorem test_raw_read_takes_one_free_value : after (step (testBusy 1 0x1021 [.readRaw])) (·.draws) = some 1 := by decide
theorem test_sample_reads_idle_crc : after (step (testIdle 0x6131 [.sample])) (·.samples) = some [0x6131] := by decide
theorem test_power_loss_unresets : after (step (testIdle 0x6131 [.losePower])) (·.resetSeen) = some false := by decide

/-! ## The assembler (R65, R66) and program P1 (95_test_vectors.md 3) -/

theorem test_assemble_p1 :
    assembleText "RESET\nCLEAR          ; 0x200\nBYTE 0x01\nbyte 2\nByte 0b11 ; third\n\nSAMPLE".toList =
      .ok [.reset, .issue 0x200, .issue 0x101, .issue 0x102, .issue 0x103, .sample] := by decide
theorem test_assemble_msg : assembleText "MSG 0x31, 0xC3".toList = .ok [.issue 0x131, .issue 0x1C3] := by decide
theorem test_assemble_crc16_and_word :
    assembleText "CRC16 1,2\n.word 0x3A5".toList = .ok [.issue 0x200, .issue 0x101, .issue 0x102, .issue 0x3A5] := by decide
theorem test_assemble_str : assemble [.str ['1', '2', '9']] = .ok [.issue 0x131, .issue 0x132, .issue 0x139] := by decide
theorem test_parse_str_keeps_semicolon :
    parseLine ("str ".toList ++ [quoteChar, 'a', ';', quoteChar]) = .ok (some (.str ['a', ';'])) := by decide
theorem test_byte_256_is_an_error : assembleText "BYTE 256".toList = .error (.outOfRange 256) := by decide
theorem test_unknown_mnemonic : assembleText "LOAD 1".toList = .error .unknownMnemonic := by decide
theorem test_ill_formed_byte : (AsmLine.byte 256).wellFormed = false := by decide
theorem test_ill_formed_msg : (AsmLine.msg [0, 256]).wellFormed = false := by decide
theorem test_ill_formed_str : (AsmLine.str [Char.ofNat 128]).wellFormed = false := by decide
theorem test_ill_formed_crc16 : (AsmLine.crc16 [256]).wellFormed = false := by decide
theorem test_ill_formed_word : (AsmLine.dotWord 1024).wellFormed = false := by decide

/-! ## The file (95_test_vectors.md 1, S8; 4, V4.3; R110 to R115) -/

theorem test_stored_form_of_6131 : (List.range 4).map (fun k => readByte (memWrite [(33, 0xFF)] 32 4 0x6131) (32 + k)) =
    [0x31, 0x61, 0x00, 0x00] := by decide
theorem test_write_of_zero_unlists : memWrite [(32, 0x27), (40, 0x01)] 32 1 0x00 = [(40, 0x01)] := by decide
theorem test_selector_offset : selectorOffset = 22633 ∧ minFileLength = 22634 := by decide
theorem test_short_file_is_an_error :
    after (step { testIdle 0 [.patch .reset none] with file := { length := 22633, cells := [(0, 0x69)] } })
      (fun t => (t.outcome, t.file.cells)) = some (some .ioError, [(0, 0x69)]) := by decide
theorem test_patch_begins_with_selector :
    after (step { testIdle 0 [.patch .reset none] with file := testFile }) (·.plan) = some [.patchSelector .reset none] := by decide
theorem test_selector_is_zeroed :
    after (step { testIdle 0 [.patchSelector .reset none] with file := { testFile with cells := [(22633, 0xFF)] } })
      (·.file.cells) = some [] := by decide
theorem test_field_is_written : after (step { testIdle 0 [.patchField 0x0927 none] with file := testFile })
    (fun t => (t.file.cells, t.outcome)) = some ([(32, 0x27), (33, 0x09)], some .ok) := by decide

/-! ## Witnesses: states and operands that meet the hypotheses of the statements -/

/-- DecodeAndEncodeAgree and the statements on one command: a well-formed instruction, and states after and before the first reset. -/
theorem test_witness_reset_and_unset :
    (Instr.reserved 0x3FF).wellFormed = true ∧ State.reset.resetSeen = true ∧ (testUnset []).resetSeen = false := by decide

/-- ChecksumIsLinear: two messages of equal length (95_test_vectors.md 2.5). -/
theorem test_witness_equal_lengths : ([0x01, 0x02, 0x03] : List Byte).length = ([0x10, 0x20, 0x30] : List Byte).length := by decide

/-- CommandsFrame and the busy time: a command that completes with an empty program. -/
theorem test_witness_command_completes : State.reset.plan = [] ∧ exec .nop State.reset = .next State.reset ∧
    (∃ t, exec (.byte 0x01) State.reset = .next t) ∧ (∃ t, exec .clear State.reset = .next t) :=
  ⟨rfl, rfl, ⟨_, rfl⟩, ⟨_, rfl⟩⟩

/-- ByteExtendsTheMessage: `crc` holds the checksum of a message. -/
theorem test_witness_crc_of_message :
    (testIdle 0x1373 []).resetSeen = true ∧ (testIdle 0x1373 []).crc = messageCrc [0x01, 0x02] := by decide

/-- StepRunsTheIssuedCommand: an idle block with a command first, and a number of ten bits at the top of its range. -/
theorem test_witness_issue_idle :
    (testIdle 0 [.issue 0x102]).plan = .issue 0x102 :: [] ∧ (testIdle 0 [.issue 0x102]).busy = false ∧ 1023 < 1024 := by decide

/-- BusyCommandIsNotAccepted: both clauses. -/
theorem test_witness_busy_offers :
    (testBusy 1 0 [.issue 0x102]).resetSeen = true ∧ (testBusy 1 0 [.issue 0x102]).busy = true ∧
    (testBusy 1 0 [.issue 0x102]).plan = .issue 0x102 :: [] ∧
    (testBusy 1 0 [.drive false true 0x102]).plan = .drive false true 0x102 :: [] := by decide

/-- HoldIsLifted: a busy state that meets the invariant. -/
theorem test_witness_busy_inv : Inv (testBusy 1 0 [.issue 0x102]) ∧ (testBusy 1 0 [.issue 0x102]).resetSeen = true ∧
    (testBusy 1 0 [.issue 0x102]).busy = true ∧ (testBusy 1 0 [.issue 0x102]).plan = .issue 0x102 :: [] :=
  ⟨⟨fun _ => .inr ⟨rfl, 1, rfl, Nat.le_refl 1, le_max_of_le_left (Nat.succ_le_succ (Nat.zero_le _))⟩, rfl⟩, rfl, rfl, rfl⟩

/-- BusyLastsItsLatency: one edge left and nothing offered. -/
theorem test_witness_last_edge : (testBusy 1 0 []).resetSeen = true ∧ (testBusy 1 0 []).busy = true ∧
    (testBusy 1 0 []).phase = .working 1 ∧ (testBusy 1 0 []).plan = [] := by decide

/-- ResetEdgeWins, PowerLossUnresets, SampleHasNoSideEffect, SampleWaitsForTheResult, WaitEndsWithTheBlockIdle,
RawReadWhileBusyIsFree: a program for each clause, idle and busy. -/
theorem test_witness_programs :
    (testUnset [.reset]).plan = .reset :: [] ∧ (testBusy 1 0 [.drive true true 0x101]).plan = .drive true true 0x101 :: [] ∧
    (testIdle 0 [.losePower]).plan = .losePower :: [] ∧
    (testIdle 0 [.sample, .sample]).plan = .sample :: .sample :: [] ∧ (testIdle 0 [.sample, .sample]).busy = false ∧
    (testBusy 1 0 [.sample]).plan = .sample :: [] ∧ (testBusy 1 0 [.wait]).plan = .wait :: [] ∧
    (testIdle 0 [.wait]).busy = false ∧ (testBusy 1 0 [.readRaw]).busy = true ∧ (testIdle 0 [.readRaw]).busy = false ∧
    (testBusy 1 0 [.readRaw]).resetSeen = true := by decide

/-- IdleCycleActsAsNop: a NOP with data. -/
theorem test_witness_nop_word : State.reset.resetSeen = true ∧ State.reset.busy = false ∧ decode 0x0FF = .nop := by decide

/-- CommandsTakeEffectInOrder: two BYTEs, on a busy block. -/
theorem test_witness_two_bytes : (testBusy 1 0 [.issue 0x101, .issue 0x102]).resetSeen = true ∧
    (testBusy 1 0 [.issue 0x101, .issue 0x102]).plan =
      .issue (encode (.byte 0x01)) :: .issue (encode (.byte 0x02)) :: [] := by decide

/-- SampleGivesTheMessageChecksum: program P3's second message (95_test_vectors.md 3), started both ways. -/
theorem test_witness_message :
    bytesFed [.issue 0x000, .issue 0x112, .issue 0x0FF, .wait, .drive false false 0x000, .issue 0x134] = some [0x12, 0x34] ∧
    (testUnset [.reset, .sample]).plan = .reset :: ([] ++ .sample :: []) ∧
    (testIdle 0 [.issue 0x2FF, .sample]).plan = .issue 0x2FF :: ([] ++ .sample :: []) ∧
    (testIdle 0 [.issue 0x2FF, .sample]).resetSeen = true ∧ (0x2FF : CmdWord) &&& 0x300 = 0x200 := by decide

/-- The three clauses of FaultsExactlyAsListed. -/
theorem test_witness_faults :
    step (testUnset [.drive false true 0x000]) = .fault (.notReset (.command 0x000)) ∧
    step (testUnset [.patchSample none]) = .fault (.notReset .sample) ∧
    step (testIdle 0 [.issue 0x300]) = .fault (.reservedOp 0x300) := ⟨rfl, rfl, rfl⟩

/-- ProgramsWithoutReservedWordsNeverFault: both ways to start, and a program of an offer, a sample and a patch. -/
theorem test_witness_clean_program :
    (testBusy 1 0 [.issue 0x102]).resetSeen = true ∧ (testUnset [.reset]).plan.head? = some .reset ∧
    ∀ a ∈ [HostAction.reset, .issue 0x2FF, .drive true true 0x300, .sample, .patch .clear (some .closeFile)],
      a ≠ .losePower ∧ ∀ w, offeredWord a = some w → w &&& 0x300 ≠ 0x300 := by
  refine ⟨rfl, rfl, ?_⟩
  simp only [List.forall_mem_cons, offeredWord]
  decide

/-- OnlyByteClearAndResetWriteCrc: a step that changes `crc`, by each way of writing it that the spec gives. -/
theorem test_witness_crc_changes :
    after (step (testIdle 0x1021 [.issue 0x102])) (fun t => decide (t.crc ≠ 0x1021)) = some true ∧
    after (step (testIdle 0x1021 [.issue 0x200])) (fun t => decide (t.crc ≠ 0x1021)) = some true ∧
    after (step (testIdle 0x1021 [.reset])) (fun t => decide (t.crc ≠ 0x1021)) = some true := by decide

/-- OnlyResetEndsTheUnresetState: both clauses. -/
theorem test_witness_reset_changes :
    after (step (testUnset [.reset])) (·.resetSeen) = some true ∧
    after (step (testIdle 0 [.losePower])) (·.resetSeen) = some false := by decide

/-- FileStepsLeaveTheBlock, BlockStepsLeaveTheHost: an action of each kind. -/
theorem test_witness_action_kinds :
    fileOnly (.patch .clear (some .closeFile)) = true ∧ blockOnly (.issue 0x101) = true ∧
    (after (step (testIdle 0 [.issue 0x101])) fun _ => true) = some true := by decide

/-- OnlyRawReadsDraw: a step that is neither a raw read nor a loss of power. -/
theorem test_witness_no_draw : State.reset.resetSeen = true ∧ (testIdle 0 [.sample]).plan.head? ≠ some .readRaw ∧
    (testIdle 0 [.sample]).plan.head? ≠ some .losePower ∧
    (after (step (testIdle 0 [.sample])) fun _ => true) = some true := by decide

/-- EveryStepKeepsTheInvariant and NoStepChangesTheFileLength: a state with the invariant that steps. -/
theorem test_witness_inv_steps : Inv State.reset ∧ (after (step State.reset) fun _ => true) = some true :=
  ⟨⟨fun _ => .inl ⟨rfl, rfl⟩, rfl⟩, rfl⟩

/-- The statements on memory: a canonical memory that is not empty. -/
theorem test_witness_canonical : Memory.wf [(32, 0xFF), (22633, 0x69)] = true ∧ Memory.wf [(33, 0x01), (32, 0x01)] = false ∧
    Memory.wf [(32, 0x00)] = false := by decide

/-- HostWriteStaysInTheFile: both clauses where they meet, at the end of a file; UsageErrorTouchesNothing. -/
theorem test_witness_file_end :
    (testIdle 0 [.memWrite 22633 1 0]).plan = .memWrite 22633 1 0 :: [] ∧ 22633 + 1 ≤ testFile.length ∧
    testFile.length < 22634 + 1 ∧ (testIdle 0 [.usageError]).plan = .usageError :: [] := by decide

/-- The statements on patches: a well-formed file that is patched, a program that patches it, and one with a failure. -/
theorem test_witness_patch : testFile.wf = true ∧ (∃ g, patchFile testFile = some g) ∧
    (testUnset [.patch .reset none]).plan = .patch .reset none :: [] ∧
    (testIdle 0 [.patch .clear (some .writeField)]).plan = .patch .clear (some .writeField) :: [] ∧
    (testIdle 0 []).resetSeen = true ∧ 22633 < 22634 :=
  ⟨rfl, ⟨_, if_neg (Nat.lt_irrefl 22634)⟩, rfl, rfl, rfl, Nat.lt_succ_self 22633⟩

/-- FailedPatchLeavesAnImage: an early failure of a patch started with CLEAR on an unreset block. -/
theorem test_witness_early_failure : (testUnset [.patch .clear (some .openFile)]).plan = .patch .clear (some .openFile) :: [] ∧
    ¬ (IoPoint.openFile = .writeField ∨ IoPoint.openFile = .closeFile) := by decide

/-- OutOfRangeOperandsAreErrors: the ends of the ranges. -/
theorem test_witness_ranges : assembleLine (.byte 255) = .ok [.issue 0x1FF] ∧ 255 < 256 ∧
    assembleLine (.dotWord 1023) = .ok [.issue 0x3FF] ∧ 1023 < 1024 := by decide

/-- PayloadIsTheRestOfTheFile: the last byte of a file. -/
theorem test_witness_last_byte : 128 + 22505 < testFile.length := by decide

/-- CommentsAreDropped: a line with neither quote nor semicolon. -/
theorem test_witness_line : quoteChar ∉ ['C', 'L', 'E', 'A', 'R'] ∧ ';' ∉ ['C', 'L', 'E', 'A', 'R'] := by decide

/-- PseudoInstructionsExpand: characters in range. -/
theorem test_witness_ascii : ∀ c ∈ ['1', '9'], c.toNat < 128 := by simp

end Sys2Proof.Machine
end

section
/-! SUPPORT. Proofs of the statements on 10_state.md: the invariant, the busy time, who writes `crc`, who ends the unreset state, the
ROM, the issue of a command, and the values after reset. -/

namespace Sys2Proof.Machine

/-! ## The invariant at reset -/

theorem sequencerOk_of_idle {s : State} (hb : s.busy = false) (hp : s.phase = .idle) : sequencerOk s := .inl ⟨hb, hp⟩

/-- Settles O44: after reset the block is idle, and before it only the file counts. -/
theorem invariantHoldsAtReset : Obligations.InvariantHoldsAtReset :=
  ⟨⟨fun _ => sequencerOk_of_idle rfl rfl, reset_file_wf⟩, ⟨nofun, reset_file_wf⟩⟩

/-! ## Every step keeps the invariant -/

/-- The sequencer is in order or not by `busy` and `phase` alone. -/
theorem sequencerOk_congr {s t : State} (hb : t.busy = s.busy) (hp : t.phase = s.phase) (h : sequencerOk s) :
    sequencerOk t := by
  rwa [sequencerOk, hb, hp]

/-- A busy time that starts within the latencies leaves the sequencer in order. -/
theorem sequencerOk_startBusy (s : State) {n : Nat} (h1 : 1 ≤ n) (hn : n ≤ max Config.byteLatency Config.clearLatency) :
    sequencerOk (startBusy s n) :=
  .inr ⟨rfl, n, rfl, h1, hn⟩

theorem one_le_byteLatency : 1 ≤ Config.byteLatency := Nat.succ_pos _

theorem one_le_clearLatency : 1 ≤ Config.clearLatency := Nat.succ_pos _

/-- A cycle after the first reset takes one edge off a busy time, or ends it. -/
theorem sequencerOk_tick {s : State} (hr : s.resetSeen = true) (h : sequencerOk s) : sequencerOk (tick s) := by
  rcases tick_cases hr with ⟨-, e⟩ | ⟨-, n, hp, e⟩ | ⟨-, -, e⟩ <;> rw [e]
  · exact h
  · rcases h with ⟨-, hi⟩ | ⟨-, m, hm, -, hle⟩
    · cases hp.symm.trans hi
    · obtain rfl : n + 2 = m := Phase.working.inj (hp.symm.trans hm)
      exact .inr ⟨rfl, n + 1, rfl, by omega, by omega⟩
  · exact sequencerOk_of_idle rfl rfl

/-- A command that completes leaves the sequencer in order: as it was, or at the start of its latency. -/
theorem sequencerOk_exec {i : Instr} {s t : State} (h : exec i s = .next t) (hs : sequencerOk s) : sequencerOk t := by
  rcases (exec_next_cases h).2 with ⟨-, rfl⟩ | ⟨b, -, rfl⟩ | ⟨-, rfl⟩
  · exact hs
  · exact sequencerOk_startBusy _ one_le_byteLatency (le_max_left ..)
  · exact sequencerOk_startBusy _ one_le_clearLatency (le_max_right ..)

/-- A command touches neither the host's file nor whether the reset was seen. -/
theorem exec_next_frame {i : Instr} {s t : State} (h : exec i s = .next t) :
    t.file = s.file ∧ t.resetSeen = s.resetSeen := by
  rcases (exec_next_cases h).2 with ⟨-, rfl⟩ | ⟨b, -, rfl⟩ | ⟨-, rfl⟩ <;> exact ⟨rfl, rfl⟩

/-- Where the sequencer is in order after the first reset, it is so after a step (R27, R155). -/
theorem step_keeps_sequencer {s t : State} (h : step s = .next t) (hs : s.resetSeen = true → sequencerOk s) :
    t.resetSeen = true → sequencerOk t := by
  intro ht
  cases step_next h with
  | cycle v w p _ e =>
    subst e
    have hr : s.resetSeen = true := (tick_frame (s.drivePins false v w)).1.symm.trans ht
    have hd : sequencerOk (s.drivePins false v w) := hs hr
    exact sequencerOk_congr (s := tick (s.drivePins false v w)) rfl rfl (sequencerOk_tick hr hd)
  | reset _ _ _ _ _ _ e => subst e; exact sequencerOk_of_idle rfl rfl
  | command a w p u _ _ _ he e =>
    subst e
    have hd : sequencerOk (s.drivePins false true w) := hs (exec_next_cases he).1
    exact sequencerOk_congr (s := u) rfl rfl (sequencerOk_exec he hd)
  | powerLost _ _ e => subst e; cases ht
  | file _ _ _ _ e =>
    obtain ⟨⟨hr, -, hb, hp, -⟩, -⟩ := e
    exact sequencerOk_congr hb hp (hs (hr.symm.trans ht))
  | sampled _ _ _ _ _ _ _ e | readIdle _ _ _ _ e | readBusy _ _ _ _ e | waited _ _ _ e =>
    subst e; exact sequencerOk_congr (s := s) rfl rfl (hs ht)

/-- A step leaves the file as it was, or is a step on the file or the procedure (R41, R110). -/
theorem step_file_cases {s t : State} (h : step s = .next t) :
    t.file = s.file ∨ ∃ a rest, s.plan = a :: rest ∧ fileOnly a = true ∧ fileStepKeeps s t := by
  cases step_next h with
  | cycle v w p _ e =>
    obtain ⟨-, -, -, -, -, -, -, hf, -⟩ := tick_frame (s.drivePins false v w)
    exact .inl (e ▸ hf)
  | command a w p u _ _ _ he e => exact .inl (e ▸ (exec_next_frame he).1)
  | file a rest hp ha e => exact .inr ⟨a, rest, hp, ha, e⟩
  | reset _ _ _ _ _ _ e | sampled _ _ _ _ _ _ _ e | readIdle _ _ _ _ e | readBusy _ _ _ _ e | powerLost _ _ e
  | waited _ _ _ e => subst e; exact .inl rfl

/-- A step keeps the canonical form of the file (R110). -/
theorem step_keeps_file_wf {s t : State} (h : step s = .next t) (hf : s.file.wf = true) : t.file.wf = true := by
  rcases step_file_cases h with e | ⟨-, -, -, -, -, -, -, -, hw⟩
  · rwa [e]
  · exact hw hf

/-- Settles O45: the sequencer and the file are kept each by its own lemma. -/
theorem everyStepKeepsTheInvariant : Obligations.EveryStepKeepsTheInvariant :=
  fun _ _ ⟨hseq, hfile⟩ h => ⟨step_keeps_sequencer h hseq, step_keeps_file_wf h hfile⟩

/-! ## The busy time -/

/-- An idle block shows `crc` (R21). -/
theorem crcOut_of_idle {s : State} (h : s.busy = false) : crcOut s = s.crc := by simp [crcOut, cmdReady, h]

/-- Settles O25: with an empty program the host holds with nothing offered, and a hold runs for the edges left. -/
theorem busyLastsItsLatency : Obligations.BusyLastsItsLatency := by
  intro s n hr hb hp hn hplan
  obtain ⟨m, rfl⟩ : ∃ m, n = m + 1 := ⟨n - 1, by omega⟩
  obtain ⟨hbefore, hend⟩ := hold_run m (holds_nil hplan) hr hb hp
  exact ⟨fun k hk => hbefore k (by omega), _, hend, rfl, rfl, rfl, rfl, crcOut_of_idle rfl⟩

/-! ## Who writes `crc`, and who ends the unreset state -/

/-- Settles O39: of all that a step can do, only a reset, an accepted BYTE or CLEAR and a loss of power write `crc`. -/
theorem onlyByteClearAndResetWriteCrc : Obligations.OnlyByteClearAndResetWriteCrc := by
  intro s t hr h hne
  cases step_next h with
  | cycle v w p _ e => exact absurd (e ▸ tick_crc (s := s.drivePins false v w) hr) hne
  | reset a v w p hp ha e => exact ⟨a, p, hp, .inl ⟨ha, e ▸ rfl⟩⟩
  | command a w p u hp ha hb he e =>
    rcases (exec_next_cases he).2 with ⟨-, hu⟩ | ⟨b, hi, hu⟩ | ⟨hi, hu⟩ <;> subst hu e
    · exact absurd rfl hne
    · exact ⟨a, p, hp, .inr (.inl ⟨hb, w, b, ha, hi, rfl⟩)⟩
    · exact ⟨a, p, hp, .inr (.inr (.inl ⟨hb, w, ha, hi, rfl⟩))⟩
  | powerLost p hp e => exact ⟨_, p, hp, .inr (.inr (.inr rfl))⟩
  | file _ _ _ _ e =>
    obtain ⟨⟨-, hc, -⟩, -⟩ := e
    exact absurd hc hne
  | sampled _ _ _ _ _ _ _ e | readIdle _ _ _ _ e | readBusy _ _ _ _ e | waited _ _ _ e => subst e; exact absurd rfl hne

/-- Settles O40: of all that a step can do, only a reset and a loss of power write whether the first reset was seen. -/
theorem onlyResetEndsTheUnresetState : Obligations.OnlyResetEndsTheUnresetState := by
  intro s t h hne
  cases step_next h with
  | cycle v w p _ e => exact absurd (e ▸ (tick_frame (s.drivePins false v w)).1) hne
  | reset a v w p hp ha e => exact ⟨a, p, hp, .inl ⟨ha, e ▸ rfl⟩⟩
  | command a w p u _ _ _ he e => exact absurd (e ▸ (exec_next_frame he).2) hne
  | powerLost p hp e => exact ⟨_, p, hp, .inr ⟨rfl, e ▸ rfl⟩⟩
  | file _ _ _ _ e =>
    obtain ⟨⟨hr, -⟩, -⟩ := e
    exact absurd hr hne
  | sampled _ _ _ _ _ _ _ e | readIdle _ _ _ _ e | readBusy _ _ _ _ e | waited _ _ _ e => subst e; exact absurd rfl hne

/-! ## The ROM -/

/-- Settles O7: the sixteen entries, looked up one by one. -/
theorem romHoldsTheTable : Obligations.RomHoldsTheTable := by
  unfold Obligations.RomHoldsTheTable
  decide

/-- An entry is the carry-less product of its index and 0x1021 (R23). -/
theorem romLookup_eq_product : ∀ i : Nibble,
    romLookup i = (i.setWidth 16 <<< 12) ^^^ (i.setWidth 16 <<< 5) ^^^ i.setWidth 16 := by
  decide

/-- A product is linear in its factor, so the ROM is linear over GF(2) (R23). -/
theorem romLookup_xor (i j : Nibble) : romLookup (i ^^^ j) = romLookup i ^^^ romLookup j := by
  simp only [romLookup_eq_product, BitVec.setWidth_xor, BitVec.shiftLeft_xor_distrib]
  ac_rfl

/-- The top nibble of an entry is its index (R23). -/
theorem topNibble_romLookup : ∀ i : Nibble, topNibble (romLookup i) = i := by decide

/-- Settles O8: linearity follows from the product, which with the top nibble is checked on the sixteen indexes. -/
theorem romIsLinear : Obligations.RomIsLinear := ⟨romLookup_xor, topNibble_romLookup, romLookup_eq_product⟩

/-! ## The issue of a command -/

/-- A step on an idle block whose program begins with a command: the meaning of its word, and the host goes on (R26, R67). -/
theorem step_issue_idle {s : State} {w : CmdWord} {rest : List HostAction} (hp : s.plan = .issue w :: rest)
    (hb : s.busy = false) :
    step s = andThen (exec (decode w) (s.drivePins false true w)) fun t => t.setPlan rest :=
  (step_issue hp).trans (hostIssue_accepted w rest (.inl hb))

/-- A word of ten bits is placed first in the program of an idle block. -/
theorem withFetchWord_ready (s : State) (nbits : Nat) {n : Nat} (h : n < 1024) :
    (s.withFetchWord nbits n).plan = .issue (BitVec.ofNat 10 n) :: s.plan ∧ (s.withFetchWord nbits n).busy = false := by
  simp [State.withFetchWord, h]

/-- Settles O22: a placed word is issued to an idle block, so both clauses are one lemma. -/
theorem stepRunsTheIssuedCommand : Obligations.StepRunsTheIssuedCommand := by
  refine ⟨fun s w rest hp hb => step_issue_idle hp hb, fun s nbits n hn => ?_⟩
  obtain ⟨hp, hb⟩ := withFetchWord_ready s nbits hn
  exact step_issue_idle hp hb

/-! ## The values after reset -/

/-- A step whose action is RESET resets the block, in every state (R150). -/
theorem step_reset_next {s : State} {rest : List HostAction} (hp : s.plan = .reset :: rest) :
    step s = .next ((applyReset (s.drivePins true false s.cmdWord)).setPlan rest) := by
  rw [step_reset hp, hostReset, hostDrive, clockEdge_rst, andThen_next]

/-- Settles O27: the listed values are those of the state after reset, and of the next state of a RESET. -/
theorem resetLeavesTheListedValues : Obligations.ResetLeavesTheListedValues :=
  ⟨rfl, crcOut_of_idle rfl, rfl, rfl, rfl, rfl, rfl, _, step_reset_next rfl, rfl, crcOut_of_idle rfl, rfl, rfl, rfl⟩

end Sys2Proof.Machine
end

section
/-! SUPPORT. Proofs of the statements on 20_memory.md: what the block's steps leave of the host, the stored form of the result, and
that a SAMPLE has no side effect. -/

namespace Sys2Proof.Machine

/-! ## A step of the block leaves the host as it was -/

/-- A command touches nothing of the host (R41). -/
theorem exec_sameHost {i : Instr} {s t : State} (h : exec i s = .next t) : sameHost s t := by
  rcases (exec_next_cases h).2 with ⟨-, rfl⟩ | ⟨b, -, rfl⟩ | ⟨-, rfl⟩ <;> exact ⟨rfl, rfl, rfl, rfl⟩

/-- A cycle touches nothing of the host (R41). -/
theorem tick_sameHost (s : State) : sameHost s (tick s) := by
  obtain ⟨-, -, -, -, -, hsamples, hrawReads, hfile, houtcome⟩ := tick_frame s
  exact ⟨hsamples, hrawReads, hfile, houtcome⟩

/-- An action of the block is neither a sample nor a step on the file. -/
theorem not_samplesPort_fileOnly_of_blockOnly {a : HostAction} (h : blockOnly a = true) :
    samplesPort a = false ∧ fileOnly a = false := by
  cases a with
  | issue | drive | wait | reset | losePower => exact ⟨rfl, rfl⟩
  | _ => cases h

/-- A step of the block touches nothing of the host (R41), nor does a loss of power in the model (R139), and it holds the program or
goes on by one action (R155). -/
theorem blockStep_leaves {s t : State} {a : HostAction} {rest : List HostAction} (hp : s.plan = a :: rest)
    (ha : blockOnly a = true) (h : step s = .next t) : sameHost s t ∧ (t.plan = rest ∨ t.plan = s.plan) := by
  obtain ⟨hsample, hfile⟩ := not_samplesPort_fileOnly_of_blockOnly ha
  have head : ∀ {b : HostAction} {p : List HostAction}, s.plan = b :: p → b = a ∧ p = rest := fun e =>
    List.cons.inj (e.symm.trans hp)
  cases step_next h with
  | cycle v w p hq e =>
    subst e
    exact ⟨tick_sameHost (s.drivePins false v w), hq.elim .inr fun ⟨b, hb, _⟩ => .inl (head hb).2⟩
  | command b w p u hb _ _ he e =>
    subst e
    have hu : sameHost (s.drivePins false true w) u := exec_sameHost he
    exact ⟨hu, .inl (head hb).2⟩
  | reset _ _ _ _ hb _ e | powerLost _ hb e | waited _ hb _ e =>
    subst e
    exact ⟨⟨rfl, rfl, rfl, rfl⟩, .inl (head hb).2⟩
  | sampled b p q hb hs => rw [(head hb).1, hsample] at hs; cases hs
  | readIdle p hb | readBusy p hb => obtain rfl := (head hb).1; cases hsample
  | file b p hb hf => rw [(head hb).1, hfile] at hf; cases hf

/-- Settles O42: the file itself is as before, so every byte of it is. -/
theorem blockStepsLeaveTheHost : Obligations.BlockStepsLeaveTheHost := by
  intro s t a rest hp ha h
  obtain ⟨hhost, hplan⟩ := blockStep_leaves hp ha h
  have ⟨_, _, hfile, _⟩ := hhost
  exact ⟨hhost, hplan, fun x => by rw [hfile]⟩

/-! ## The stored form of a value -/

/-- The bytes of a value above its lowest are those of its quotient by 256. -/
theorem shiftRight_succ_byte (v k : Nat) : v >>> (8 * (k + 1)) = (v / 256) >>> (8 * k) := by
  rw [Nat.mul_succ, Nat.add_comm, Nat.shiftRight_add, Nat.shiftRight_eq_div_pow v 8]

/-- A read of one byte of what MemWrite wrote gives that byte of the value (R110). -/
theorem readByte_memWrite : ∀ {n k : Nat} {m : Memory} (a v : Nat), m.wf = true → k < n →
    readByte (memWrite m a n v) (a + k) = BitVec.ofNat 8 (v >>> (8 * k))
  | n + 1, 0, m, a, v, hm, _ => by
    rw [memWrite, readByte_memWrite_other n _ _ (.inl (by omega))]
    exact readByte_writeByte a _ hm
  | n + 1, k + 1, m, a, v, hm, hk => by
    rw [memWrite, shiftRight_succ_byte, Nat.add_comm k, ← Nat.add_assoc]
    exact readByte_memWrite (a + 1) (v / 256) (writeByte_wf a _ hm) (Nat.lt_of_succ_lt_succ hk)

/-- MemRead of bytes that are those of `v`, the least significant first, is `v` cut to its width (R45, R110). -/
theorem memRead_eq_mod : ∀ {n : Nat} {m : Memory} {a v : Nat},
    (∀ k, k < n → readByte m (a + k) = BitVec.ofNat 8 (v >>> (8 * k))) → memRead m a n = v % 256 ^ n
  | 0, _, _, v, _ => by simp [memRead, Nat.mod_one]
  | n + 1, m, a, v, h => by
    have first : readByte m a = BitVec.ofNat 8 v := h 0 (by omega)
    have others : memRead m (a + 1) n = (v / 256) % 256 ^ n := memRead_eq_mod fun k hk => by
      rw [← shiftRight_succ_byte, Nat.add_assoc, Nat.add_comm 1]
      exact h (k + 1) (by omega)
    rw [memRead, first, others, Nat.pow_succ']
    exact Nat.mod_mul.symm

/-- MemRead of the first `k` bytes of what MemWrite wrote (R110). -/
theorem memRead_memWrite {n k : Nat} {m : Memory} (a v : Nat) (hm : m.wf = true) (hk : k ≤ n) :
    memRead (memWrite m a n v) a k = v % 256 ^ k :=
  memRead_eq_mod fun _ hj => readByte_memWrite a v hm (by omega)

/-- Settles O48: the four bytes are those of `crc` as a number, whose bits end at 16. -/
theorem storedResultIsLittleEndian : Obligations.StoredResultIsLittleEndian := by
  intro m a c hm
  have byte : ∀ k, k < 4 → readByte (memWrite m a 4 c.toNat) (a + k) = c.extractLsb' (8 * k) 8 :=
    fun k hk => readByte_memWrite a c.toNat hm hk
  have high : ∀ i, 16 ≤ i → c.extractLsb' i 8 = 0x00 := fun i hi => by
    ext j hj
    simpa using BitVec.getLsbD_of_ge c (i + j) (by omega)
  have fits : c.toNat < 256 ^ 2 := c.isLt
  refine ⟨byte 0 (by omega), byte 1 (by omega), (byte 2 (by omega)).trans (high _ (by omega)),
    (byte 3 (by omega)).trans (high _ (by omega)), ?_, ?_⟩
  · rw [memRead_memWrite a _ hm (by omega), Nat.mod_eq_of_lt fits]
  · rw [memRead_memWrite a _ hm (by omega), BitVec.toNat_setWidth]; norm_num

/-! ## A SAMPLE of the idle block -/

/-- A SAMPLE of an idle block after the first reset records `crc`, and the host goes on (R21, R66). -/
theorem step_sample_idle {s : State} {rest : List HostAction} (hp : s.plan = .sample :: rest) (hr : s.resetSeen = true)
    (hb : s.busy = false) : step s = .next ((s.recordSample s.crc).setPlan rest) := by
  rw [step_sample hp, hostSample]
  rcases sampleThen_cases (fun _ => rest) s with ⟨h, -⟩ | ⟨-, h, -⟩ | ⟨-, -, e⟩
  · simp [hr] at h
  · simp [hb] at h
  · exact e

/-- Settles O29: the state after the first SAMPLE is idle with the same `crc`, so the second one records it again. -/
theorem sampleHasNoSideEffect : Obligations.SampleHasNoSideEffect := by
  intro s rest hr hb
  refine ⟨fun hp => step_sample_idle hp hr hb, fun hp => ?_⟩
  have second : step ((s.recordSample s.crc).setPlan (.sample :: rest)) = .next _ := step_sample_idle rfl hr hb
  exact reachesIn_succ (step_sample_idle hp hr hb) (reachesIn_succ second (reachesIn_zero _))

end Sys2Proof.Machine
end

section
/-! SUPPORT. Proofs of the statements on 30_encoding.md: the opcode map, decode and encode, the idle cycle, WAIT and SAMPLE, and the
assembler. -/

namespace Sys2Proof.Machine

/-! ## The rows of the opcode map -/

/-- The masked bits of a word are its field `op` at bits 9:8 (R60, R61). -/
theorem and_opMask_eq_opField (w : CmdWord) : w &&& opMask = (opField w).setWidth 10 <<< 8 := by
  ext i hi
  interval_cases i <;> simp [opMask, opField]

/-- The field `op` has four values, so a word is in one of four rows (R61). -/
theorem opRow_cases (w : CmdWord) :
    w &&& opMask = 0x000 ∨ w &&& opMask = 0x100 ∨ w &&& opMask = 0x200 ∨ w &&& opMask = 0x300 := by
  rw [and_opMask_eq_opField]
  generalize opField w = op
  revert op
  decide

theorem decode_of_row_nop {w : CmdWord} (h : w &&& opMask = 0x000) : decode w = .nop := by simp [decode, h]

theorem decode_of_row_byte {w : CmdWord} (h : w &&& opMask = 0x100) : decode w = .byte (dataField w) := by simp [decode, h]

theorem decode_of_row_clear {w : CmdWord} (h : w &&& opMask = 0x200) : decode w = .clear := by simp [decode, h]

theorem decode_of_row_reserved {w : CmdWord} (h : w &&& opMask = 0x300) : decode w = .reserved w := by simp [decode, h]

/-- Settles O1: one lemma for each row, and the four values of the field `op`. -/
theorem opcodeMapPartitionsTheWords : Obligations.OpcodeMapPartitionsTheWords := fun w =>
  ⟨decode_of_row_nop, decode_of_row_byte, decode_of_row_clear, decode_of_row_reserved, opRow_cases w⟩

/-! ## Decode and encode -/

/-- The word of a well-formed command is in the command's row (R61). -/
theorem encode_and_opMask : ∀ {i : Instr}, i.wellFormed = true → encode i &&& opMask = opMatch i
  | .nop => Laws.WordMatchesRow.nop
  | .byte b => Laws.WordMatchesRow.byte b
  | .clear => Laws.WordMatchesRow.clear
  | .reserved w => Laws.WordMatchesRow.reserved w

/-- The data bits of the word of BYTE are its operand (R63). -/
theorem dataField_encode_byte (b : Byte) : dataField (encode (.byte b)) = b := by
  ext i hi
  interval_cases i <;> simp [dataField, encode]

/-- A word is its masked bits and its data bits (R60). -/
theorem row_or_dataField (w : CmdWord) : (w &&& opMask) ||| (dataField w).setWidth 10 = w := by
  ext i hi
  interval_cases i <;> simp [opMask, dataField]

/-- Bit 8 of a word is one of its masked bits. -/
theorem getLsbD_eight_and_opMask (w : CmdWord) : (w &&& opMask).getLsbD 8 = w.getLsbD 8 := by simp [opMask]

theorem decode_encode {i : Instr} (h : i.wellFormed = true) : decode (encode i) = i := by
  have hrow := encode_and_opMask h
  cases i with
  | nop => exact decode_of_row_nop hrow
  | byte b => rw [decode_of_row_byte hrow, dataField_encode_byte]
  | clear => exact decode_of_row_clear hrow
  | reserved w => exact decode_of_row_reserved hrow

theorem decode_wellFormed (w : CmdWord) : (decode w).wellFormed = true := by
  rcases opRow_cases w with h | h | h | h
  · rw [decode_of_row_nop h]; rfl
  · rw [decode_of_row_byte h]; rfl
  · rw [decode_of_row_clear h]; rfl
  · rw [decode_of_row_reserved h]; exact beq_iff_eq.2 h

/-- The word of a decoded word: itself, but for the data bits of NOP and CLEAR, which come back as 0 (R62). -/
theorem encode_decode (w : CmdWord) : encode (decode w) = if w.getLsbD 8 = true then w else w &&& opMask := by
  rw [← getLsbD_eight_and_opMask w]
  rcases opRow_cases w with h | h | h | h
  · rw [decode_of_row_nop h, h]; rfl
  · have hw := row_or_dataField w
    rw [h] at hw
    rw [decode_of_row_byte h, h]
    exact hw
  · rw [decode_of_row_clear h, h]; rfl
  · rw [decode_of_row_reserved h, h]; rfl

/-- Settles O2: both directions go by the rows of the opcode map. -/
theorem decodeAndEncodeAgree : Obligations.DecodeAndEncodeAgree :=
  ⟨fun _ => decode_encode, fun w => ⟨decode_wellFormed w, encode_decode w⟩⟩

/-- Data bits are outside the mask, so they do not move a word to another row (R60, R62). -/
theorem or_setWidth_and_opMask (w : CmdWord) (d : Byte) : (w ||| d.setWidth 10) &&& opMask = w &&& opMask := by
  ext i hi
  interval_cases i <;> simp [opMask]

/-- Settles O3: the words with data are in the rows of the words without. -/
theorem dataOfNopAndClearIsIgnored : Obligations.DataOfNopAndClearIsIgnored := by
  refine ⟨fun d => decode_of_row_nop ?_, fun d => decode_of_row_clear (or_setWidth_and_opMask 0x200 d), rfl, rfl⟩
  rw [← BitVec.zero_or (x := d.setWidth 10)]
  exact or_setWidth_and_opMask 0x000 d

theorem toNat_highNibble (b : Byte) : (highNibble b).toNat = b.toNat >>> 4 := by
  have := b.isLt
  rw [highNibble, BitVec.extractLsb'_toNat, Nat.shiftRight_eq_div_pow]
  omega

theorem toNat_lowNibble (b : Byte) : (lowNibble b).toNat = b.toNat &&& 0xF := by
  rw [lowNibble, BitVec.extractLsb'_toNat, Nat.shiftRight_zero]
  exact (Nat.and_two_pow_sub_one_eq_mod b.toNat 4).symm

/-- Settles O4: the word decodes back, as every encoded command does. -/
theorem byteEncodesItsOperand : Obligations.ByteEncodesItsOperand := fun b =>
  ⟨rfl, decode_encode (i := .byte b) rfl, toNat_highNibble b, toNat_lowNibble b⟩

theorem decodeNumber_of_lt {n : Nat} (h : n < 1024) : decodeNumber n = .ok (decode (BitVec.ofNat 10 n)) := if_pos h

theorem decodeNumber_of_ge {n : Nat} (h : 1024 ≤ n) : decodeNumber n = .error (.widerThanTenBits n) :=
  if_neg (Nat.not_lt.2 h)

/-- Settles O6: a table row is decoded as its number is. -/
theorem tableDecoderReadsTenBits : Obligations.TableDecoderReadsTenBits := fun nbits n =>
  ⟨fun h => by rw [decodeTableWord, decodeNumber_of_lt h],
   fun h => ⟨by rw [decodeTableWord, decodeNumber_of_ge h], decodeNumber_of_ge h⟩⟩

/-! ## The idle cycle -/

/-- NOP after the first reset changes nothing (R89). -/
theorem exec_nop {s : State} (h : s.resetSeen = true) : exec .nop s = .next s := if_pos h

theorem tick_idle {s : State} (hr : s.resetSeen = true) (hb : s.busy = false) : tick s = s := by
  rcases tick_cases hr with ⟨-, e⟩ | ⟨h, -⟩ | ⟨h, -⟩
  · exact e
  · simp [hb] at h
  · simp [hb] at h

/-- A NOP issued to an idle block after the first reset changes the ports and the program only (R67, R89). -/
theorem step_issue_nop {s : State} {w : CmdWord} {rest : List HostAction} (hp : s.plan = .issue w :: rest)
    (hr : s.resetSeen = true) (hb : s.busy = false) (hw : decode w = .nop) :
    step s = .next ((s.drivePins false true w).setPlan rest) := by
  have hnop : exec .nop (s.drivePins false true w) = .next (s.drivePins false true w) := exec_nop hr
  rw [step_issue_idle hp hb, hw, hnop, andThen_next]

/-- An edge at which nothing is offered to an idle block after the first reset changes the ports and the program only (R67). -/
theorem step_drive_nothing {s : State} {v : CmdWord} {rest : List HostAction} (hp : s.plan = .drive false false v :: rest)
    (hr : s.resetSeen = true) (hb : s.busy = false) :
    step s = .next ((s.drivePins false false v).setPlan rest) := by
  have htick : tick (s.drivePins false false v) = s.drivePins false false v := tick_idle hr hb
  rw [step_drive hp]
  rcases hostDrive_cases false false v rest s with ⟨h, -⟩ | ⟨-, h, -⟩ | ⟨-, -, e⟩
  · cases h
  · cases h
  · rw [e, htick]

/-- Settles O33: the two steps drive the ports, each with its own levels, and go on. -/
theorem idleCycleActsAsNop : Obligations.IdleCycleActsAsNop := fun _ _ _ _ hr hb hw =>
  ⟨_, _, step_issue_nop rfl hr hb hw, step_drive_nothing rfl hr hb, rfl, rfl, rfl⟩

/-! ## WAIT and SAMPLE -/

/-- The state in which a hold with nothing offered ends: the block idle, and all but the ports as before (R155). -/
def heldToIdle (s : State) : State := (s.drivePins false false s.cmdWord).setSequencer false .idle

/-- Settles O30: an idle block is sampled at once, a busy one after the hold, which leaves `crc` as it was. -/
theorem sampleWaitsForTheResult : Obligations.SampleWaitsForTheResult := by
  intro s rest hr hp
  cases hb : s.busy with
  | false => exact ⟨_, reaches_step (step_sample_idle hp hr hb) (reaches_refl _), rfl, rfl, rfl, hb, rfl, rfl, rfl⟩
  | true =>
    have hold : reaches s (heldToIdle s) := hold_ends (holds_sample hp) hr hb
    have sample : step (heldToIdle s) = .next _ := step_sample_idle hp hr rfl
    exact ⟨_, reaches_trans hold (reaches_step sample (reaches_refl _)), rfl, rfl, rfl, rfl, rfl, rfl, rfl⟩

/-- WAIT on an idle block ends at once (R66). -/
theorem step_wait_idle {s : State} {rest : List HostAction} (hp : s.plan = .wait :: rest) (hb : s.busy = false) :
    step s = .next (s.setPlan rest) := by
  rw [step_wait hp, hostWait, cmdReady, hb]
  rfl

/-- Settles O31: an idle block ends the WAIT at once, a busy one after the hold. -/
theorem waitEndsWithTheBlockIdle : Obligations.WaitEndsWithTheBlockIdle := by
  intro s rest hp
  refine ⟨step_wait_idle hp, fun hr => ?_⟩
  cases hb : s.busy with
  | false => exact ⟨_, reaches_step (step_wait_idle hp hb) (reaches_refl _), rfl, hr, hb, rfl, rfl, rfl, rfl, rfl⟩
  | true =>
    have hold : reaches s (heldToIdle s) := hold_ends (holds_wait hp) hr hb
    have wait : step (heldToIdle s) = .next _ := step_wait_idle hp rfl
    exact ⟨_, reaches_trans hold (reaches_step wait (reaches_refl _)), rfl, hr, rfl, rfl, rfl, rfl, rfl, rfl⟩

/-! ## The assembler: lines -/

theorem assembleByte_of_lt {n : Nat} (h : n < 256) : assembleByte n = .ok (.issue (encode (.byte (BitVec.ofNat 8 n)))) :=
  if_pos h

theorem assembleByte_of_ge {n : Nat} (h : 256 ≤ n) : assembleByte n = .error (.outOfRange n) := if_neg (Nat.not_lt.2 h)

theorem assembleChar_of_lt {c : Char} (h : c.toNat < 128) :
    assembleChar c = .ok (.issue (encode (.byte (BitVec.ofNat 8 c.toNat)))) :=
  if_pos h

theorem assembleByte_ok_iff (n : Nat) : (∃ a, assembleByte n = .ok a) ↔ n < 256 := by
  unfold assembleByte
  split <;> simp_all

theorem assembleChar_ok_iff (c : Char) : (∃ a, assembleChar c = .ok a) ↔ c.toNat < 128 := by
  unfold assembleChar
  split <;> simp_all

theorem exceptMap_ok_iff {ε α β : Type} (f : α → β) (x : Except ε α) :
    (∃ b, x.map f = .ok b) ↔ ∃ a, x = .ok a := by
  cases x <;> simp [Except.map]

/-- A list assembles exactly where each of its items does. -/
theorem assembleEach_ok_iff {α : Type} (f : α → Except AsmError HostAction) (xs : List α) :
    (∃ as, assembleEach f xs = .ok as) ↔ ∀ x ∈ xs, ∃ a, f x = .ok a := by
  induction xs with
  | nil => simp [assembleEach]
  | cons x xs ih =>
    rw [List.forall_mem_cons, ← ih, assembleEach]
    cases f x <;> cases assembleEach f xs <;> simp

/-- Items that all assemble give their actions in order. -/
theorem assembleEach_eq_map {α : Type} {f : α → Except AsmError HostAction} {g : α → HostAction} :
    ∀ {xs : List α}, (∀ x ∈ xs, f x = .ok (g x)) → assembleEach f xs = .ok (xs.map g)
  | [], _ => rfl
  | x :: xs, h => by
    obtain ⟨hx, hxs⟩ := List.forall_mem_cons.1 h
    rw [assembleEach, hx, assembleEach_eq_map hxs]
    rfl

theorem assembleLine_dotWord_of_lt {n : Nat} (h : n < 1024) :
    assembleLine (.dotWord n) = .ok [.issue (BitVec.ofNat 10 n)] := if_pos h

theorem assembleLine_dotWord_of_ge {n : Nat} (h : 1024 ≤ n) : assembleLine (.dotWord n) = .error (.outOfRange n) :=
  if_neg (Nat.not_lt.2 h)

/-- A line assembles exactly where its operands are in range (R65, R66). -/
theorem wellFormed_iff_assembles (l : AsmLine) : l.wellFormed = true ↔ ∃ as, assembleLine l = .ok as := by
  cases l with
  | nop | clear | wait | sample | reset => exact ⟨fun _ => ⟨_, rfl⟩, fun _ => rfl⟩
  | byte n => rw [assembleLine, exceptMap_ok_iff, assembleByte_ok_iff]; simp [AsmLine.wellFormed]
  | msg ns => simp [assembleLine, assembleEach_ok_iff, assembleByte_ok_iff, AsmLine.wellFormed]
  | str cs => simp [assembleLine, assembleEach_ok_iff, assembleChar_ok_iff, AsmLine.wellFormed]
  | crc16 ns =>
    rw [assembleLine, exceptMap_ok_iff]
    simp [assembleEach_ok_iff, assembleByte_ok_iff, AsmLine.wellFormed]
  | dotWord n =>
    rcases Nat.lt_or_ge n 1024 with h | h
    · simp [assembleLine_dotWord_of_lt h, AsmLine.wellFormed, h]
    · simp [assembleLine_dotWord_of_ge h, AsmLine.wellFormed, h]

/-- The word of BYTE with its operand as a number (R63). -/
theorem encode_byte_ofNat {n : Nat} (h : n < 256) : encode (.byte (BitVec.ofNat 8 n)) = 0x100 ||| BitVec.ofNat 10 n := by
  rw [encode, BitVec.setWidth_ofNat_of_le_of_lt (by omega) h]

/-- Settles O57: the range of each operand, and the word or the error on each side of its end. -/
theorem outOfRangeOperandsAreErrors : Obligations.OutOfRangeOperandsAreErrors := by
  refine ⟨wellFormed_iff_assembles, fun n h => ?_, fun _ => assembleLine_dotWord_of_lt, fun n h => ?_,
    fun _ => assembleLine_dotWord_of_ge⟩
  · rw [assembleLine, assembleByte_of_lt h, encode_byte_ofNat h]; rfl
  · rw [assembleLine, assembleByte_of_ge h]; rfl

/-! ## The assembler: pseudo-instructions -/

theorem assembleEach_map {α β : Type} (f : α → Except AsmError HostAction) (g : β → α) (xs : List β) :
    assembleEach f (xs.map g) = assembleEach (f ∘ g) xs := by
  induction xs with
  | nil => rfl
  | cons x xs ih => rw [List.map_cons, assembleEach, ih]; rfl

/-- The operands of a message assemble to its BYTEs (R66). -/
theorem assembleEach_assembleByte (m : List Byte) : assembleEach assembleByte (m.map BitVec.toNat) = .ok (msgActions m) := by
  rw [assembleEach_map]
  refine assembleEach_eq_map fun b _ => ?_
  rw [Function.comp, assembleByte_of_lt b.isLt, BitVec.ofNat_toNat, BitVec.setWidth_eq]

/-- The BYTEs of a message feed the message (R67, R92). -/
theorem bytesFed_msgActions : ∀ m : List Byte, bytesFed (msgActions m) = some m
  | [] => rfl
  | b :: m => by
    have ih : bytesFed (msgActions m) = some m := bytesFed_msgActions m
    have hb : decode (encode (.byte b)) = .byte b := decode_encode rfl
    rw [msgActions] at ih ⊢
    simp [bytesFed, hb, ih]

/-- Settles O58: MSG and CRC16 are the BYTEs of the message, and STR those of its character codes. -/
theorem pseudoInstructionsExpand : Obligations.PseudoInstructionsExpand := by
  refine ⟨fun m => ⟨assembleEach_assembleByte m, ?_, bytesFed_msgActions m⟩, fun cs hcs => ?_⟩
  · rw [assembleLine, assembleEach_assembleByte]; rfl
  · refine assembleEach_eq_map fun c hc => ?_
    have hlt : c.toNat < 128 := hcs c hc
    rw [assembleChar_of_lt hlt, encode_byte_ofNat (by omega)]

/-! ## The assembler: comments -/

/-- Characters other than the quote and the semicolon pass the removal of comments unchanged (R65). -/
theorem dropComment_append : ∀ {line : List Char} (rest : List Char), quoteChar ∉ line → ';' ∉ line →
    dropComment false (line ++ rest) = line ++ dropComment false rest
  | [], _, _, _ => rfl
  | c :: line, rest, hq, hs => by
    obtain ⟨hqc, hql⟩ := List.ne_and_not_mem_of_not_mem_cons hq
    obtain ⟨hsc, hsl⟩ := List.ne_and_not_mem_of_not_mem_cons hs
    simp [dropComment, hqc.symm, hsc.symm, dropComment_append rest hql hsl]

/-- A line is parsed by what is left of it without its comment. -/
theorem parseLine_congr {a b : List Char} (h : dropComment false a = dropComment false b) : parseLine a = parseLine b := by
  simp only [parseLine, h]

/-- Settles O59: with and without the comment the same characters are left of the line. -/
theorem commentsAreDropped : Obligations.CommentsAreDropped := by
  intro line comment hq hs
  have bare := dropComment_append [] hq hs
  rw [List.append_nil] at bare
  exact parseLine_congr ((dropComment_append (';' :: comment) hq hs).trans bare.symm)

end Sys2Proof.Machine
end

section
/-! SUPPORT. Proofs of the statements on 40_crc_commands.md: the checksum's arithmetic, the commands, and the block's contract. -/

namespace Sys2Proof.Machine

/-! ## The rounds as masked integer formulas -/

theorem toNat_topNibble_xor (c : CrcWord) (n : Nibble) :
    (topNibble c ^^^ n).toNat = ((c.toNat >>> 12) ^^^ n.toNat) &&& 0xF := by
  have hn : n.toNat % 2 ^ 4 = n.toNat := Nat.mod_eq_of_lt n.isLt
  rw [BitVec.toNat_xor, topNibble, BitVec.extractLsb'_toNat, ← hn, ← Nat.xor_mod_two_pow, hn]
  exact (Nat.and_two_pow_sub_one_eq_mod _ 4).symm

theorem toNat_shiftLeft_four (c : CrcWord) : (c <<< 4).toNat = (c.toNat <<< 4) &&& 0xFFFF := by
  rw [BitVec.toNat_shiftLeft]
  exact (Nat.and_two_pow_sub_one_eq_mod _ 16).symm

/-- The nibble round in the source's arithmetic: the masks are the widths of the types (R81, R83). -/
theorem toNat_nibbleRound (c : CrcWord) (n : Nibble) :
    (nibbleRound c n).toNat =
      (romLookup (BitVec.ofNat 4 (((c.toNat >>> 12) ^^^ n.toNat) &&& 0xF))).toNat ^^^ ((c.toNat <<< 4) &&& 0xFFFF) := by
  rw [← toNat_topNibble_xor, BitVec.ofNat_toNat, BitVec.setWidth_eq, ← toNat_shiftLeft_four, ← BitVec.toNat_xor]
  rfl

/-- Settles O9: the byte update is a nibble round on a nibble round. -/
theorem byteUpdateIsTwoMaskedRounds : Obligations.ByteUpdateIsTwoMaskedRounds := by
  refine ⟨toNat_nibbleRound, fun c b => ?_⟩
  rw [byteUpdate, toNat_nibbleRound, toNat_nibbleRound, toNat_highNibble, toNat_lowNibble]

/-! ## The rounds are linear over GF(2) -/

theorem nibbleRound_xor (c d : CrcWord) (n k : Nibble) :
    nibbleRound (c ^^^ d) (n ^^^ k) = nibbleRound c n ^^^ nibbleRound d k := by
  have top : topNibble (c ^^^ d) = topNibble c ^^^ topNibble d := BitVec.extractLsb'_xor
  have index : topNibble c ^^^ topNibble d ^^^ (n ^^^ k) = (topNibble c ^^^ n) ^^^ (topNibble d ^^^ k) := by ac_rfl
  rw [nibbleRound, top, index, romLookup_xor, BitVec.shiftLeft_xor_distrib, nibbleRound, nibbleRound]
  ac_rfl

theorem byteUpdate_xor (c d : CrcWord) (a b : Byte) :
    byteUpdate (c ^^^ d) (a ^^^ b) = byteUpdate c a ^^^ byteUpdate d b := by
  have high : highNibble (a ^^^ b) = highNibble a ^^^ highNibble b := BitVec.extractLsb'_xor
  have low : lowNibble (a ^^^ b) = lowNibble a ^^^ lowNibble b := BitVec.extractLsb'_xor
  rw [byteUpdate, high, low, nibbleRound_xor, nibbleRound_xor, byteUpdate, byteUpdate]

theorem foldl_byteUpdate_xorBytes : ∀ {m m' : List Byte} (c d : CrcWord), m.length = m'.length →
    (xorBytes m m').foldl byteUpdate (c ^^^ d) = m.foldl byteUpdate c ^^^ m'.foldl byteUpdate d
  | [], [], _, _, _ => rfl
  | a :: m, b :: m', c, d, h => by
    rw [xorBytes, List.foldl_cons, byteUpdate_xor, foldl_byteUpdate_xorBytes _ _ (Nat.succ.inj h)]
    rfl

/-- Settles O12: the byte update is linear, and the initial value 0x0000 is its own sum. -/
theorem checksumIsLinear : Obligations.ChecksumIsLinear := fun _ _ h => foldl_byteUpdate_xorBytes crcInit crcInit h

/-! ## The shift register -/

theorem serialStep_of_top_clear {c : CrcWord} (h : c.getLsbD 15 = false) : serialStep c = c <<< 1 := by
  rw [serialStep, h, if_neg Bool.false_ne_true]

/-- A step is a shift and the feedback of the bit shifted out (R85). -/
theorem serialStep_eq (c : CrcWord) : serialStep c = (c <<< 1) ^^^ if c.getLsbD 15 then 0x1021 else 0x0000 := by
  rw [serialStep]
  split
  · rfl
  · exact BitVec.xor_zero.symm

theorem feedback_xor : ∀ p q : Bool,
    (if p ^^ q then (0x1021 : CrcWord) else 0x0000) = (if p then 0x1021 else 0x0000) ^^^ if q then 0x1021 else 0x0000 := by
  decide

/-- A step is linear, as the shift and the feedback are. -/
theorem serialStep_xor (c d : CrcWord) : serialStep (c ^^^ d) = serialStep c ^^^ serialStep d := by
  simp only [serialStep_eq, BitVec.getLsbD_xor, BitVec.shiftLeft_xor_distrib, feedback_xor]
  ac_rfl

theorem serialSteps_xor : ∀ (n : Nat) (c d : CrcWord), serialSteps n (c ^^^ d) = serialSteps n c ^^^ serialSteps n d
  | 0, _, _ => rfl
  | n + 1, c, d => by rw [serialSteps, serialStep_xor, serialSteps_xor n, serialSteps, serialSteps]

theorem serialSteps_add (k : Nat) : ∀ (n : Nat) (c : CrcWord), serialSteps (n + k) c = serialSteps k (serialSteps n c)
  | 0, c => by rw [Nat.zero_add, serialSteps]
  | n + 1, c => by rw [Nat.add_right_comm, serialSteps, serialSteps_add k n, serialSteps]

/-- While no set bit reaches the top, the register only shifts. -/
theorem serialSteps_of_top_clear : ∀ {n : Nat} {c : CrcWord}, (∀ i, i < n → c.getLsbD (15 - i) = false) →
    serialSteps n c = c <<< n
  | 0, c, _ => by simp [serialSteps]
  | n + 1, c, h => by
    have next : ∀ i, i < n → (c <<< 1).getLsbD (15 - i) = false := fun i hi => by
      have := h (i + 1) (by omega)
      rw [BitVec.getLsbD_shiftLeft, Nat.sub_sub, this, Bool.and_false]
    rw [serialSteps, serialStep_of_top_clear (h 0 (by omega)), serialSteps_of_top_clear next, ← BitVec.shiftLeft_add,
      Nat.add_comm]

/-- Four steps shift a nibble out of the top and feed back its ROM entry (R23, R85). -/
theorem serialSteps_four_top : ∀ n : Nibble, serialSteps 4 (n.setWidth 16 <<< 12) = romLookup n := by decide

theorem nibbleRound_eq_serialSteps (c : CrcWord) (n : Nibble) :
    nibbleRound c n = serialSteps 4 (c ^^^ (n.setWidth 16 <<< 12)) := by
  have parts : c ^^^ (n.setWidth 16 <<< 12) = ((topNibble c ^^^ n).setWidth 16 <<< 12) ^^^ (c.setWidth 12).setWidth 16 := by
    grind [topNibble]
  have low : serialSteps 4 ((c.setWidth 12).setWidth 16) = c <<< 4 := by
    rw [serialSteps_of_top_clear (by grind)]
    grind
  rw [parts, serialSteps_xor, serialSteps_four_top, low, nibbleRound]

theorem byteUpdate_eq_serialSteps (c : CrcWord) (b : Byte) :
    byteUpdate c b = serialSteps 8 (c ^^^ (b.setWidth 16 <<< 8)) := by
  have parts : b.setWidth 16 <<< 8 = ((highNibble b).setWidth 16 <<< 12) ^^^ ((lowNibble b).setWidth 16 <<< 8) := by
    grind [highNibble, lowNibble]
  have low : serialSteps 4 ((lowNibble b).setWidth 16 <<< 8) = (lowNibble b).setWidth 16 <<< 12 := by
    rw [serialSteps_of_top_clear (by grind), ← BitVec.shiftLeft_add]
  rw [byteUpdate, nibbleRound_eq_serialSteps, nibbleRound_eq_serialSteps, parts, ← BitVec.xor_assoc,
    serialSteps_add 4 4, serialSteps_xor 4 _ ((lowNibble b).setWidth 16 <<< 8), low]

/-- Settles O10: the register is linear, and the nibble shifted out feeds back its ROM entry. -/
theorem byteUpdateIsEightSerialSteps : Obligations.ByteUpdateIsEightSerialSteps :=
  ⟨nibbleRound_eq_serialSteps, byteUpdate_eq_serialSteps⟩

/-! ## The checksum of a message -/

theorem messageCrc_append (m1 m2 : List Byte) : messageCrc (m1 ++ m2) = m2.foldl byteUpdate (messageCrc m1) :=
  List.foldl_append

/-- Settles O11: the checksum is a fold from the left. -/
theorem checksumFoldsTheBytes : Obligations.ChecksumFoldsTheBytes :=
  ⟨rfl, fun m b => messageCrc_append m [b], messageCrc_append⟩

theorem foldl_byteUpdate_zeros : ∀ n : Nat, (List.replicate n (0x00 : Byte)).foldl byteUpdate crcInit = crcInit
  | 0 => rfl
  | n + 1 => by
    have zero : byteUpdate crcInit 0x00 = crcInit := by decide
    rw [List.replicate_succ, List.foldl_cons, zero, foldl_byteUpdate_zeros n]

/-- Settles O13: a zero byte leaves the initial value as it is. -/
theorem leadingZerosDoNotCount : Obligations.LeadingZerosDoNotCount := fun n m => by
  rw [messageCrc_append, messageCrc, foldl_byteUpdate_zeros, messageCrc]

/-- A round with the nibble that is shifted out only shifts: the ROM's entry 0 is zero. -/
theorem nibbleRound_topNibble (c : CrcWord) : nibbleRound c (topNibble c) = c <<< 4 := by
  have entry : romLookup 0#4 = 0#16 := by decide
  rw [nibbleRound, BitVec.xor_self, entry, BitVec.zero_xor]

/-- A byte update with the byte that is shifted out only shifts. -/
theorem byteUpdate_topByte (c : CrcWord) : byteUpdate c (c.extractLsb' 8 8) = c <<< 8 := by
  have high : highNibble (c.extractLsb' 8 8) = topNibble c := by grind [highNibble, topNibble]
  have low : lowNibble (c.extractLsb' 8 8) = topNibble (c <<< 4) := by grind [lowNibble, topNibble]
  rw [byteUpdate, high, nibbleRound_topNibble, low, nibbleRound_topNibble, ← BitVec.shiftLeft_add]

/-- The two bytes of a checksum, high byte first, shift all of it out (R86 d). -/
theorem byteUpdate_highByte_lowByte (c : CrcWord) :
    byteUpdate (byteUpdate c (c.extractLsb' 8 8)) (c.extractLsb' 0 8) = 0x0000 := by
  have low : c.extractLsb' 0 8 = (c <<< 8).extractLsb' 8 8 := by grind
  rw [byteUpdate_topByte, low, byteUpdate_topByte, ← BitVec.shiftLeft_add]
  exact BitVec.shiftLeft_eq_zero (Nat.le_refl 16)

/-- Settles O14: the two bytes of the checksum shift it out; the little-endian example is computed in two parts. -/
theorem bigEndianResidueIsZero : Obligations.BigEndianResidueIsZero := by
  refine ⟨fun m => ?_, ?_⟩
  · rw [messageCrc_append]
    exact byteUpdate_highByte_lowByte _
  · have first : messageCrc [0x31, 0x32, 0x33, 0x34] = 0xD789 := by decide
    have others : [0x35, 0x36, 0x37, 0x38, 0x39, 0xC3, 0x31].foldl byteUpdate 0xD789 = 0xBAFE := by decide
    rw [← others, ← first]
    exact messageCrc_append [0x31, 0x32, 0x33, 0x34] [0x35, 0x36, 0x37, 0x38, 0x39, 0xC3, 0x31]

/-! ## The commands -/

/-- Before the first reset every command raises NotReset (R131). -/
theorem exec_unset (i : Instr) {s : State} (h : s.resetSeen = false) :
    exec i s = .fault (.notReset (.command s.cmdWord)) := by
  have fault : ∀ effect, whenReset s effect = .fault (.notReset (.command s.cmdWord)) := fun _ => if_neg (by simp [h])
  cases i <;> exact fault _

/-- BYTE after the first reset: the byte update, and busy (R91). -/
theorem exec_byte {s : State} (b : Byte) (h : s.resetSeen = true) :
    exec (.byte b) s = .next (startBusy (s.writeCrc (byteUpdate s.crc b)) Config.byteLatency) := if_pos h

/-- CLEAR after the first reset: the initial value, and busy (R90). -/
theorem exec_clear {s : State} (h : s.resetSeen = true) :
    exec .clear s = .next (startBusy (s.writeCrc crcInit) Config.clearLatency) := if_pos h

/-- A command that starts a busy time of `n` cycles keeps the block busy for `n` edges with nothing more offered, and then leaves it
idle with its result (R27). -/
theorem startBusy_lasts {s : State} {n : Nat} (hr : s.resetSeen = true) (hn : 1 ≤ n) (hp : s.plan = []) :
    (∀ k, k < n → ∃ u, reachesIn k (startBusy s n) u ∧ u.busy = true) ∧
    ∃ u, reachesIn n (startBusy s n) u ∧ u.busy = false ∧ u.crc = s.crc := by
  obtain ⟨before, u, hu, hb, -, hc, -⟩ := busyLastsItsLatency (startBusy s n) n hr rfl rfl hn hp
  refine ⟨fun k hk => ?_, u, hu, hb, hc⟩
  obtain ⟨v, hv, hbusy, -⟩ := before k hk
  exact ⟨v, hv, hbusy⟩

/-- Settles O15: the row of the opcode map, and NOP's own lemma. -/
theorem nopCompletesUnchanged : Obligations.NopCompletesUnchanged :=
  ⟨fun _ => decode_of_row_nop, fun _ => exec_nop, fun _ => exec_unset .nop⟩

/-- Settles O16: the meaning of BYTE is the byte update, which is the two rounds, and its busy time is a hold. -/
theorem byteCompletesWithTwoRounds : Obligations.ByteCompletesWithTwoRounds := by
  refine ⟨fun b => decode_encode (i := .byte b) rfl, fun s b => exec_byte b, fun s t b hp h => ?_,
    fun s b => exec_unset (.byte b)⟩
  have hr : s.resetSeen = true := (exec_next_cases h).1
  obtain rfl := Host.Outcome.next.inj ((exec_byte b hr).symm.trans h)
  exact startBusy_lasts (s := s.writeCrc _) hr one_le_byteLatency hp

/-- Settles O17: the meaning of CLEAR is the initial value, and its busy time is a hold. -/
theorem clearCompletesAtZero : Obligations.ClearCompletesAtZero := by
  refine ⟨fun _ => decode_of_row_clear, fun _ => exec_clear, fun s t hp h => ?_, fun _ => exec_unset .clear⟩
  have hr : s.resetSeen = true := (exec_next_cases h).1
  obtain rfl := Host.Outcome.next.inj ((exec_clear hr).symm.trans h)
  exact startBusy_lasts (s := s.writeCrc _) hr one_le_clearLatency hp

/-- Settles O20: each of the three commands that complete writes `crc` and the sequencer at most. -/
theorem commandsFrame : Obligations.CommandsFrame := by
  intro i s t h
  have hhost : sameHost s t := exec_sameHost h
  obtain ⟨hfile, -⟩ := exec_next_frame h
  have bytes : ∀ a, fileByte t.file a = fileByte s.file a := fun a => by rw [hfile]
  rcases (exec_next_cases h).2 with ⟨-, rfl⟩ | ⟨b, rfl, rfl⟩ | ⟨rfl, rfl⟩
  · exact ⟨rfl, rfl, rfl, rfl, rfl, rfl, hhost, bytes, fun _ => ⟨rfl, rfl, rfl⟩⟩
  · exact ⟨rfl, rfl, rfl, rfl, rfl, rfl, hhost, bytes, nofun⟩
  · exact ⟨rfl, rfl, rfl, rfl, rfl, rfl, hhost, bytes, nofun⟩

/-- Settles O21: the checksum continues by one byte update, which is eight serial steps. -/
theorem byteExtendsTheMessage : Obligations.ByteExtendsTheMessage := by
  intro s b m hr hc
  refine ⟨_, exec_byte b hr, ?_, byteUpdate_eq_serialSteps s.crc b⟩
  show byteUpdate s.crc b = messageCrc (m ++ [b])
  rw [messageCrc_append, hc, List.foldl_cons, List.foldl_nil]

/-! ## A program is carried through -/

theorem sameHost_trans {s u t : State} : sameHost s u → sameHost u t → sameHost s t
  | ⟨a, b, c, d⟩, ⟨a', b', c', d'⟩ => ⟨a'.trans a, b'.trans b, c'.trans c, d'.trans d⟩

/-- The host's program is carried through to `rest` after the first reset, with `c` in `crc` and the host as before. -/
def carriedTo (s : State) (rest : List HostAction) (c : CrcWord) : Prop :=
  ∃ t, reaches s t ∧ t.plan = rest ∧ t.resetSeen = true ∧ t.crc = c ∧ sameHost s t

theorem carriedTo_refl {s : State} (hr : s.resetSeen = true) : carriedTo s s.plan s.crc :=
  ⟨s, reaches_refl s, rfl, hr, rfl, rfl, rfl, rfl, rfl⟩

theorem carriedTo_step {s t : State} (h : step s = .next t) (hr : t.resetSeen = true) (hs : sameHost s t) :
    carriedTo s t.plan t.crc :=
  ⟨t, reaches_step h (reaches_refl t), rfl, hr, rfl, hs⟩

theorem carriedTo_trans {s : State} {mid rest : List HostAction} {c d : CrcWord} (h : carriedTo s mid c)
    (next : ∀ u : State, u.plan = mid → u.resetSeen = true → u.crc = c → carriedTo u rest d) : carriedTo s rest d := by
  obtain ⟨u, hu, hp, hr, hc, hs⟩ := h
  obtain ⟨t, ht, hp', hr', hc', hs'⟩ := next u hp hr hc
  exact ⟨t, reaches_trans hu ht, hp', hr', hc', sameHost_trans hs hs'⟩

/-- An action that holds while the block is busy comes to an idle block, with all but the sequencer and the ports as before
(R155). -/
theorem hold_reaches_idle {v : Bool} {w : CmdWord} {s : State} (hh : holdsWith v w s) (hr : s.resetSeen = true) :
    ∃ u, reaches s u ∧ u.busy = false ∧ u.plan = s.plan ∧ u.resetSeen = true ∧ u.crc = s.crc ∧ sameHost s u := by
  cases hb : s.busy with
  | false => exact ⟨s, reaches_refl s, hb, rfl, hr, rfl, rfl, rfl, rfl, rfl⟩
  | true => exact ⟨_, hold_ends hh hr hb, rfl, rfl, hr, rfl, rfl, rfl, rfl, rfl⟩

/-- An issued command that completes is carried through from a busy block too: it is held, and then accepted on the full result of
the command before it (R53, R155). -/
theorem carriedTo_issue {s : State} {w : CmdWord} {rest : List HostAction} {f : CrcWord → CrcWord}
    (hp : s.plan = .issue w :: rest) (hr : s.resetSeen = true)
    (he : ∀ u : State, u.resetSeen = true → ∃ t, exec (decode w) u = .next t ∧ t.crc = f u.crc) :
    carriedTo s rest (f s.crc) := by
  obtain ⟨u, hu, hb, hup, hur, huc, hus⟩ := hold_reaches_idle (holds_issue hp) hr
  obtain ⟨t, ht, htc⟩ := he (u.drivePins false true w) hur
  have accept : step u = .next (t.setPlan rest) := by rw [step_issue_idle (hup.trans hp) hb, ht, andThen_next]
  have hts : sameHost (u.drivePins false true w) t := exec_sameHost ht
  refine ⟨_, reaches_trans hu (reaches_step accept (reaches_refl _)), rfl, (exec_next_frame ht).2.trans hur, ?_,
    sameHost_trans hus hts⟩
  rw [State.setPlan_crc, htc, State.drivePins_crc, huc]

theorem carriedTo_nop {s : State} {w : CmdWord} {rest : List HostAction} (hp : s.plan = .issue w :: rest)
    (hr : s.resetSeen = true) (hw : decode w = .nop) : carriedTo s rest s.crc :=
  carriedTo_issue (f := id) hp hr fun u hu => ⟨u, hw ▸ exec_nop hu, rfl⟩

theorem carriedTo_byte {s : State} {w : CmdWord} {b : Byte} {rest : List HostAction} (hp : s.plan = .issue w :: rest)
    (hr : s.resetSeen = true) (hw : decode w = .byte b) : carriedTo s rest (byteUpdate s.crc b) :=
  carriedTo_issue (f := (byteUpdate · b)) hp hr fun _ hu => ⟨_, hw ▸ exec_byte b hu, rfl⟩

theorem carriedTo_clear {s : State} {w : CmdWord} {rest : List HostAction} (hp : s.plan = .issue w :: rest)
    (hr : s.resetSeen = true) (hw : decode w = .clear) : carriedTo s rest crcInit :=
  carriedTo_issue (f := fun _ => crcInit) hp hr fun _ hu => ⟨_, hw ▸ exec_clear hu, rfl⟩

/-- RESET is carried through in one step from every state, the unreset one too (R150). -/
theorem carriedTo_reset {s : State} {rest : List HostAction} (hp : s.plan = .reset :: rest) : carriedTo s rest crcInit :=
  carriedTo_step (step_reset_next hp) rfl ⟨rfl, rfl, rfl, rfl⟩

/-- An edge with nothing offered lets a cycle pass, busy or not, and leaves `crc` (R67). -/
theorem carriedTo_idleCycle {s : State} {w : CmdWord} {rest : List HostAction} (hp : s.plan = .drive false false w :: rest)
    (hr : s.resetSeen = true) : carriedTo s rest s.crc := by
  have cycle : step s = .next ((tick (s.drivePins false false w)).setPlan rest) := by
    rw [step_drive hp]
    rcases hostDrive_cases false false w rest s with ⟨h, -⟩ | ⟨-, h, -⟩ | ⟨-, -, e⟩
    · cases h
    · cases h
    · exact e
  have hc : (tick (s.drivePins false false w)).crc = s.crc := tick_crc hr
  have htr := (tick_frame (s.drivePins false false w)).1
  have hs := tick_sameHost (s.drivePins false false w)
  rw [← hc]
  exact carriedTo_step cycle (htr.trans hr) hs

theorem carriedTo_wait {s : State} {rest : List HostAction} (hp : s.plan = .wait :: rest) (hr : s.resetSeen = true) :
    carriedTo s rest s.crc := by
  obtain ⟨-, wait⟩ := waitEndsWithTheBlockIdle s rest hp
  obtain ⟨t, ht, htp, htr, -, htc, hts⟩ := wait hr
  exact ⟨t, ht, htp, htr, htc, hts⟩

/-! ## The block's contract -/

/-- The bytes that one action of a message's program feeds: one by a BYTE, none by a NOP, an idle cycle or a WAIT (R67, R92). -/
inductive Feeds : HostAction → List Byte → Prop where
  | nop {w : CmdWord} (hw : decode w = .nop) : Feeds (.issue w) []
  | byte {w : CmdWord} {b : Byte} (hw : decode w = .byte b) : Feeds (.issue w) [b]
  | idleCycle (w : CmdWord) : Feeds (.drive false false w) []
  | wait : Feeds .wait []

/-- A program that feeds a message begins with an action that feeds the message's beginning. -/
theorem bytesFed_cons {a : HostAction} {fed : List HostAction} {m : List Byte} (h : bytesFed (a :: fed) = some m) :
    ∃ bs m', Feeds a bs ∧ bytesFed fed = some m' ∧ m = bs ++ m' := by
  cases a with
  | issue w =>
    rw [bytesFed] at h
    cases hw : decode w with
    | nop => rw [hw] at h; exact ⟨[], m, .nop hw, h, rfl⟩
    | byte b =>
      rw [hw] at h
      obtain ⟨m', hm, rfl⟩ := Option.map_eq_some_iff.1 h
      exact ⟨[b], m', .byte hw, hm, rfl⟩
    | clear | reserved => rw [hw] at h; cases h
  | drive r v w =>
    cases r with
    | true => cases h
    | false =>
      cases v with
      | true => cases h
      | false => exact ⟨[], m, .idleCycle w, h, rfl⟩
  | wait => exact ⟨[], m, .wait, h, rfl⟩
  | _ => cases h

theorem carriedTo_of_feeds {a : HostAction} {bs : List Byte} {s : State} {rest : List HostAction} (h : Feeds a bs)
    (hp : s.plan = a :: rest) (hr : s.resetSeen = true) : carriedTo s rest (bs.foldl byteUpdate s.crc) := by
  cases h with
  | nop hw => exact carriedTo_nop hp hr hw
  | byte hw => exact carriedTo_byte hp hr hw
  | idleCycle w => exact carriedTo_idleCycle hp hr
  | wait => exact carriedTo_wait hp hr

/-- A program that feeds a message is carried through, and `crc` goes on by the message's bytes (R84, R92). -/
theorem carriedTo_of_bytesFed {rest : List HostAction} : ∀ {fed : List HostAction} {m : List Byte} {s : State},
    bytesFed fed = some m → s.plan = fed ++ rest → s.resetSeen = true → carriedTo s rest (m.foldl byteUpdate s.crc)
  | [], m, s, h, hp, hr => by
    obtain rfl := Option.some.inj h
    obtain rfl : s.plan = rest := hp
    exact carriedTo_refl hr
  | a :: fed, m, s, h, hp, hr => by
    obtain ⟨bs, m', ha, hfed, rfl⟩ := bytesFed_cons h
    rw [List.foldl_append]
    refine carriedTo_trans (carriedTo_of_feeds ha hp hr) fun u hup hur huc => ?_
    rw [← huc]
    exact carriedTo_of_bytesFed hfed hup hur

/-- A SAMPLE after the first reset is carried through: it waits for the idle block and records `crc` (R66). -/
theorem sample_completes {s : State} {rest : List HostAction} (hp : s.plan = .sample :: rest) (hr : s.resetSeen = true) :
    ∃ t, reaches s t ∧ t.plan = rest ∧ t.resetSeen = true ∧ t.busy = false ∧ t.crc = s.crc ∧ t.samples = s.crc :: s.samples ∧
      t.file = s.file ∧ t.outcome = s.outcome ∧ t.rawReads = s.rawReads := by
  obtain ⟨u, hu, hb, hup, hur, huc, hsamples, hraw, hfile, hout⟩ := hold_reaches_idle (holds_sample hp) hr
  have sample := step_sample_idle (hup.trans hp) hur hb
  refine ⟨_, reaches_trans hu (reaches_step sample (reaches_refl _)), rfl, hur, hb, huc, ?_, hfile, hout, hraw⟩
  rw [State.setPlan_samples, State.recordSample_samples, huc, hsamples]

/-- Settles O35: the start leaves 0x0000 in `crc`, the bytes fed carry it to the checksum, and the SAMPLE records it. -/
theorem sampleGivesTheMessageChecksum : Obligations.SampleGivesTheMessageChecksum := by
  intro s first fed rest m hfed hp hfirst
  have start : carriedTo s (fed ++ .sample :: rest) crcInit := by
    rcases hfirst with rfl | ⟨hr, w, rfl, hw⟩
    · exact carriedTo_reset hp
    · exact carriedTo_clear hp hr (decode_of_row_clear hw)
  have message : carriedTo s (.sample :: rest) (messageCrc m) := carriedTo_trans start fun u hup hur huc => by
    rw [messageCrc, ← huc]
    exact carriedTo_of_bytesFed hfed hup hur
  obtain ⟨u, hu, hup, hur, huc, hsamples, hraw, hfile, hout⟩ := message
  obtain ⟨t, ht, htp, htr, htb, htc, hts, htf, hto, htraw⟩ := sample_completes hup hur
  have samples : t.samples = messageCrc m :: s.samples := by rw [hts, huc, hsamples]
  refine ⟨t, reaches_trans hu ht, htp, htr, htb, ?_, samples, ?_, htf.trans hfile, hto.trans hout, htraw.trans hraw⟩
  · rw [crcOut_of_idle htb, htc, huc]
  · rw [finalChecksum, samples, List.head?_cons]

end Sys2Proof.Machine
end

section
/-! SUPPORT. Proofs of the statements on 48_host_usage.md: the bytes of the profile file, the image of a patch, the patch step by step, and
its failures. -/

namespace Sys2Proof.Machine

/-! ## The file's length and its bytes -/

/-- Settles O46: a step leaves the file as it was, or is a step on the file or the procedure, which keeps its length. -/
theorem noStepChangesTheFileLength : Obligations.NoStepChangesTheFileLength := by
  intro s t h
  rcases step_file_cases h with e | ⟨-, -, -, -, -, -, -, hlength, -⟩
  · rw [e]
  · exact hlength

/-- MemRead of `n` bytes is a number of `n` bytes (R45). -/
theorem memRead_lt (m : Memory) : ∀ n a : Nat, memRead m a n < 256 ^ n
  | 0, _ => Nat.one_pos
  | n + 1, a => by
    have hbyte : (readByte m a).toNat < 256 := (readByte m a).isLt
    have hrest : memRead m (a + 1) n < 256 ^ n := memRead_lt m n (a + 1)
    rw [memRead, Nat.pow_succ']
    omega

/-- Byte `k` of the number that MemRead gives is the `k`-th byte of the range (R45, R110). -/
theorem byte_memRead {m : Memory} : ∀ {n k : Nat} (a : Nat), k < n →
    BitVec.ofNat 8 (memRead m a n >>> (8 * k)) = readByte m (a + k)
  | n + 1, 0, a, _ => by
    apply BitVec.eq_of_toNat_eq
    rw [memRead, BitVec.toNat_ofNat]
    exact (Nat.add_mul_mod_self_left ..).trans (Nat.mod_eq_of_lt (readByte m a).isLt)
  | n + 1, k + 1, a, hk => by
    have hbyte : (readByte m a).toNat < 256 := (readByte m a).isLt
    have quotient : memRead m a (n + 1) / 256 = memRead m (a + 1) n := by
      rw [memRead]
      omega
    rw [shiftRight_succ_byte, quotient, Nat.add_comm k, ← Nat.add_assoc]
    exact byte_memRead (a + 1) (Nat.lt_of_succ_lt_succ hk)

/-- Settles O47: the laws of a write and of a read, each by induction on the number of bytes. -/
theorem memWriteSetsItsBytes : Obligations.MemWriteSetsItsBytes := fun m a n v hm =>
  ⟨fun _ => readByte_memWrite a v hm, fun _ => readByte_memWrite_other n m v, memRead_memWrite a v hm (Nat.le_refl n),
    fun _ => byte_memRead a, memRead_lt m n a⟩

/-- Settles O49: the two clauses are the two things a write of the file can do. -/
theorem hostWriteStaysInTheFile : Obligations.HostWriteStaysInTheFile := by
  intro s a n v rest hp
  rw [step_memWrite hp, hostMemWrite]
  rcases writeThen_cases a n v rest (fun t => .next (t.setPlan rest)) s with ⟨h, e⟩ | ⟨h, e⟩ <;> rw [e]
  · exact ⟨fun _ => rfl, fun h' => absurd h (Nat.not_le.2 h')⟩
  · exact ⟨fun h' => absurd h' (Nat.not_le.2 h), fun _ => rfl⟩

/-- Settles O50: the payload is the file's bytes mapped over a range. -/
theorem payloadIsTheRestOfTheFile : Obligations.PayloadIsTheRestOfTheFile := by
  refine fun f => ⟨by rw [payload, List.length_map, List.length_range, headerSize], fun k hk => ?_⟩
  have inRange : k < f.length - headerSize := Nat.lt_sub_of_add_lt (by rwa [Nat.add_comm])
  rw [payload, List.getElem?_map, List.getElem?_range inRange, Option.map_some, headerSize]

/-- Settles O52: a usage error is the end of a procedure. -/
theorem usageErrorTouchesNothing : Obligations.UsageErrorTouchesNothing := fun _ _ hp => step_usageError hp

/-! ## The image of a patch -/

/-- The image after step 1 of a patch (R116). -/
def zeroSelector (f : ProfileFile) : ProfileFile := { f with cells := memWrite f.cells selectorOffset 1 selectorValue }

/-- The image after step 4 of a patch that computed `c` (R116). -/
def storeChecksum (f : ProfileFile) (c : CrcWord) : ProfileFile :=
  { f with cells := memWrite f.cells checksumOffset 4 c.toNat }

/-- A file long enough is patched by the two writes, the checksum being that of the payload after the first (R116, R117). -/
theorem patchFile_of_le {f : ProfileFile} (h : minFileLength ≤ f.length) :
    patchFile f = some (storeChecksum (zeroSelector f) (messageCrc (payload (zeroSelector f)))) :=
  if_neg (Nat.not_lt.2 h)

theorem patchFile_eq_none_iff (f : ProfileFile) : patchFile f = none ↔ f.length < minFileLength := by
  rcases Nat.lt_or_ge f.length minFileLength with h | h
  · exact iff_of_true (if_pos h) h
  · exact iff_of_false (by rw [patchFile_of_le h]; nofun) (Nat.not_lt.2 h)

/-- A file that is patched is long enough, and its patched image is that of the two writes. -/
theorem patchFile_eq_some {f g : ProfileFile} (h : patchFile f = some g) :
    minFileLength ≤ f.length ∧ g = storeChecksum (zeroSelector f) (messageCrc (payload (zeroSelector f))) := by
  have hlength : minFileLength ≤ f.length := Nat.not_lt.1 fun hlt => by
    rw [(patchFile_eq_none_iff f).2 hlt] at h
    cases h
  exact ⟨hlength, Option.some.inj (h.symm.trans (patchFile_of_le hlength))⟩

theorem checksumField_le_minFileLength : checksumOffset + 4 ≤ minFileLength := by decide

theorem zeroSelector_wf {f : ProfileFile} (hf : f.wf = true) (h : minFileLength ≤ f.length) : (zeroSelector f).wf = true :=
  memWrite_file_wf _ hf h

theorem storeChecksum_wf {f : ProfileFile} (c : CrcWord) (hf : f.wf = true) (h : minFileLength ≤ f.length) :
    (storeChecksum f c).wf = true :=
  memWrite_file_wf _ hf (checksumField_le_minFileLength.trans h)

theorem fileByte_zeroSelector_other (f : ProfileFile) {a : Nat} (h : a ≠ 22633) :
    fileByte (zeroSelector f) a = fileByte f a :=
  readByte_memWrite_other 1 f.cells selectorValue (Nat.lt_or_gt_of_ne h)

theorem fileByte_zeroSelector {f : ProfileFile} (hf : f.wf = true) : fileByte (zeroSelector f) 22633 = 0x00 :=
  readByte_memWrite selectorOffset selectorValue ((ProfileFile.wf_iff f).1 hf).1 Nat.one_pos

theorem fileByte_storeChecksum_other (f : ProfileFile) (c : CrcWord) {a : Nat} (h : a < 32 ∨ 36 ≤ a) :
    fileByte (storeChecksum f c) a = fileByte f a :=
  readByte_memWrite_other 4 f.cells c.toNat h

/-- The checksum field is no part of the payload (R111, R112). -/
theorem payload_storeChecksum (f : ProfileFile) (c : CrcWord) : payload (storeChecksum f c) = payload f :=
  List.map_congr_left fun k _ => fileByte_storeChecksum_other f c (.inr (by rw [headerSize]; omega))

/-- Settles O53: the field's bytes are the stored form of the checksum, and no other write touches the selector or the payload. -/
theorem patchPostcondition : Obligations.PatchPostcondition := by
  intro f g hf h
  obtain ⟨hlength, rfl⟩ := patchFile_eq_some h
  have hwf := zeroSelector_wf hf hlength
  obtain ⟨low, high, zero2, zero3, -⟩ := storedResultIsLittleEndian (zeroSelector f).cells checksumOffset
    (messageCrc (payload (zeroSelector f))) ((ProfileFile.wf_iff _).1 hwf).1
  rw [payload_storeChecksum]
  refine ⟨?_, low, high, zero2, zero3, fun a h0 h1 h2 h3 h4 => ?_, rfl, storeChecksum_wf _ hwf hlength⟩
  · rw [fileByte_storeChecksum_other _ _ (by omega), fileByte_zeroSelector hf]
  · rw [fileByte_storeChecksum_other _ _ (by omega), fileByte_zeroSelector_other f h0]

/-- A write of the bytes that a canonical memory already holds leaves it as it is. -/
theorem memWrite_eq_self {m : Memory} {a n v : Nat} (hm : m.wf = true)
    (h : ∀ k, k < n → readByte m (a + k) = BitVec.ofNat 8 (v >>> (8 * k))) : memWrite m a n v = m := by
  refine eq_of_readByte_eq (memWrite_wf n a v hm) hm fun x => ?_
  by_cases hx : x < a ∨ a + n ≤ x
  · exact readByte_memWrite_other n m v hx
  · obtain ⟨k, rfl⟩ := Nat.exists_eq_add_of_le (show a ≤ x by omega)
    rw [readByte_memWrite a v hm (by omega), h k (by omega)]

theorem zeroSelector_eq_self {f : ProfileFile} (hf : f.wf = true) (h : fileByte f 22633 = 0x00) : zeroSelector f = f := by
  have same : memWrite f.cells selectorOffset 1 selectorValue = f.cells :=
    memWrite_eq_self ((ProfileFile.wf_iff f).1 hf).1 fun k hk => by
      obtain rfl : k = 0 := by omega
      exact h
  rw [zeroSelector, same]

theorem storeChecksum_storeChecksum {f : ProfileFile} (c : CrcWord) (hf : f.wf = true) :
    storeChecksum (storeChecksum f c) c = storeChecksum f c := by
  have hcells := ((ProfileFile.wf_iff f).1 hf).1
  have same : memWrite (storeChecksum f c).cells checksumOffset 4 c.toNat = (storeChecksum f c).cells :=
    memWrite_eq_self (memWrite_wf 4 _ _ hcells) fun _ hk => readByte_memWrite checksumOffset c.toNat hcells hk
  rw [storeChecksum, same]

/-- Settles O54: each of the two writes finds its bytes in place, the checksum since the payload is the same. -/
theorem patchIsIdempotent : Obligations.PatchIsIdempotent := by
  intro f g hf h
  obtain ⟨selector, -, -, -, -, -, hlen, hg⟩ := patchPostcondition f g hf h
  obtain ⟨hlength, rfl⟩ := patchFile_eq_some h
  rw [patchFile_of_le (hlength.trans_eq hlen.symm), zeroSelector_eq_self hg selector, payload_storeChecksum,
    storeChecksum_storeChecksum _ (zeroSelector_wf hf hlength)]

/-! ## The patch step by step -/

/-- Settles O51: the check of the length is the first thing that `patchFile` and the procedure do. -/
theorem shortFileIsNotWritten : Obligations.ShortFileIsNotWritten :=
  ⟨patchFile_eq_none_iff, fun _ _ _ _ hp hshort => (step_patch hp).trans (if_pos (.inl hshort))⟩

section PatchSteps

variable {s : State} {start : MessageStart} {failure : Option IoPoint} {rest : List HostAction} {c : CrcWord}

/-- The start of a patch of a file long enough, which opens (R115). -/
theorem step_patch_opens (hp : s.plan = .patch start failure :: rest) (hl : minFileLength ≤ s.file.length)
    (hf : failure ≠ some .openFile) :
    step s = .next ((s.setOutcome none).setPlan (.patchSelector start failure :: rest)) :=
  (step_patch hp).trans (if_neg (not_or.2 ⟨Nat.not_lt.2 hl, hf⟩))

/-- Step 1 of a patch, where the write succeeds (R116). -/
theorem step_patchSelector_writes (hp : s.plan = .patchSelector start failure :: rest) (hl : minFileLength ≤ s.file.length)
    (hf : failure ≠ some .writeSelector) :
    step s = .next ((s.setFile (zeroSelector s.file)).setPlan (.patchPayload start failure :: rest)) := by
  rw [step_patchSelector hp, hostPatchSelector, if_neg hf]
  rcases writeThen_cases selectorOffset 1 selectorValue rest
    (fun t => .next (t.setPlan (.patchPayload start failure :: rest))) s with ⟨-, e⟩ | ⟨hlt, -⟩
  · exact e
  · exact absurd hl (Nat.not_le.2 hlt)

/-- Step 2 of a patch, where the read succeeds (R116). -/
theorem step_patchPayload_reads (hp : s.plan = .patchPayload start failure :: rest) (hf : failure ≠ some .readPayload) :
    step s = .next (s.setPlan (startAction start :: (msgActions (payload s.file) ++ .patchSample failure :: rest))) :=
  (step_patchPayload hp).trans (if_neg hf)

/-- Step 4 of a patch, where the write succeeds (R116, R120). -/
theorem step_patchField_writes (hp : s.plan = .patchField c failure :: rest) (hl : minFileLength ≤ s.file.length)
    (hf : failure ≠ some .writeField) :
    step s = .next (((s.setFile (storeChecksum s.file c)).setOutcome
      (some (if failure = some .closeFile then .ioError else .ok))).setPlan rest) := by
  rw [step_patchField hp, hostPatchField, if_neg hf]
  rcases writeThen_cases checksumOffset 4 c.toNat rest
    (finishWith (if failure = some .closeFile then .ioError else .ok) rest) s with ⟨-, e⟩ | ⟨hlt, -⟩
  · exact e
  · exact absurd (checksumField_le_minFileLength.trans hl) (Nat.not_le.2 hlt)

/-- The start of a message is carried through with CRC_INIT in `crc`: by RESET from every state, by CLEAR after the first reset (R116,
R152). -/
theorem carriedTo_start (hp : s.plan = startAction start :: rest) (hr : start = .clear → s.resetSeen = true) :
    carriedTo s rest crcInit := by
  cases start with
  | reset => exact carriedTo_reset hp
  | clear => exact carriedTo_clear hp (hr rfl) (decode_encode (i := .clear) rfl)

/-- The start of a message and its bytes are carried through with the checksum in `crc` (R92, R116). -/
theorem carriedTo_message {m : List Byte} (hp : s.plan = startAction start :: (msgActions m ++ rest))
    (hr : start = .clear → s.resetSeen = true) : carriedTo s rest (messageCrc m) :=
  carriedTo_trans (carriedTo_start hp hr) fun u hup hur huc => by
    rw [messageCrc, ← huc]
    exact carriedTo_of_bytesFed (bytesFed_msgActions m) hup hur

/-- The patch comes to step 4 with `c` to write and with the file `f`, the block idle with `c` in `crc`, and `c` the new sample. -/
def comesToField (s : State) (c : CrcWord) (failure : Option IoPoint) (rest : List HostAction) (f : ProfileFile) : Prop :=
  ∃ t, reaches s t ∧ t.plan = .patchField c failure :: rest ∧ t.busy = false ∧ t.crc = c ∧ t.samples = c :: s.samples ∧
    t.rawReads = s.rawReads ∧ t.file = f

/-- The end of step 3 waits for the idle block and takes `crc` as the checksum to write (R66, R116). -/
theorem patchSample_comesToField (hp : s.plan = .patchSample failure :: rest) (hr : s.resetSeen = true) :
    comesToField s s.crc failure rest s.file := by
  obtain ⟨u, hu, hb, hup, hur, huc, hsamples, hraw, hfile, -⟩ := hold_reaches_idle (holds_patchSample hp) hr
  have sample : step u = .next ((u.recordSample u.crc).setPlan (.patchField u.crc failure :: rest)) := by
    rw [step_patchSample (hup.trans hp), hostPatchSample]
    rcases sampleThen_cases (fun c => .patchField c failure :: rest) u with ⟨h, -⟩ | ⟨-, h, -⟩ | ⟨-, -, e⟩
    · simp [hur] at h
    · simp [hb] at h
    · exact e
  rw [comesToField, ← huc, ← hsamples]
  exact ⟨_, reaches_trans hu (reaches_step sample (reaches_refl _)), rfl, hb, rfl, rfl, hraw, hfile⟩

/-- Steps 2 and 3 of a patch whose payload is read: the block computes the checksum of the payload as it stands (R116, R117). -/
theorem patchPayload_comesToField (hp : s.plan = .patchPayload start failure :: rest)
    (hr : start = .clear → s.resetSeen = true) (hread : failure ≠ some .readPayload) :
    comesToField s (messageCrc (payload s.file)) failure rest s.file := by
  obtain ⟨u, hu, hup, hur, huc, husamples, huraw, hufile, -⟩ := carriedTo_message (s := s.setPlan _) rfl hr
  obtain ⟨t, ht, htp, htb, htc, htsamples, htraw, htfile⟩ := patchSample_comesToField hup hur
  rw [huc] at htp htc htsamples
  rw [husamples] at htsamples
  exact ⟨t, reaches_step (step_patchPayload_reads hp hread) (reaches_trans hu ht), htp, htb, htc, htsamples,
    htraw.trans huraw, htfile.trans hufile⟩

/-- A patch whose selector is written comes to step 2 with the image after step 1. -/
theorem patch_reaches_payload (hp : s.plan = .patch start failure :: rest) (hl : minFileLength ≤ s.file.length)
    (hopen : failure ≠ some .openFile) (hselector : failure ≠ some .writeSelector) :
    reaches s (((s.setOutcome none).setFile (zeroSelector s.file)).setPlan (.patchPayload start failure :: rest)) :=
  reaches_step (step_patch_opens hp hl hopen)
    (reaches_step (step_patchSelector_writes rfl hl hselector) (reaches_refl _))

/-- A patch whose payload is read comes to step 4 with the image after step 1 and the checksum of that image's payload. -/
theorem patch_comesToField (hp : s.plan = .patch start failure :: rest) (hl : minFileLength ≤ s.file.length)
    (hr : start = .clear → s.resetSeen = true) (hopen : failure ≠ some .openFile)
    (hselector : failure ≠ some .writeSelector) (hread : failure ≠ some .readPayload) :
    comesToField s (messageCrc (payload (zeroSelector s.file))) failure rest (zeroSelector s.file) := by
  have toPayload := patch_reaches_payload hp hl hopen hselector
  obtain ⟨t, ht, atField⟩ := patchPayload_comesToField
    (s := ((s.setOutcome none).setFile (zeroSelector s.file)).setPlan (.patchPayload start failure :: rest)) rfl hr hread
  exact ⟨t, reaches_trans toPayload ht, atField⟩

/-- Step 4, where the write succeeds, ends the procedure with the checksum in the file and the block as step 3 left it (R116, R120). -/
theorem comesToField_writes {f : ProfileFile} (h : comesToField s c failure rest f) (hl : minFileLength ≤ f.length)
    (hf : failure ≠ some .writeField) :
    ∃ t, reaches s t ∧ t.plan = rest ∧ t.file = storeChecksum f c ∧
      t.outcome = some (if failure = some .closeFile then .ioError else .ok) ∧ t.busy = false ∧ crcOut t = c ∧
      t.samples = c :: s.samples ∧ t.rawReads = s.rawReads := by
  obtain ⟨u, hu, hup, hub, huc, hus, huraw, rfl⟩ := h
  exact ⟨_, reaches_trans hu (reaches_step (step_patchField_writes hup hl hf) (reaches_refl _)), rfl, rfl, rfl, hub,
    (crcOut_of_idle hub).trans huc, hus, huraw⟩

end PatchSteps

/-- Settles O55: the run comes to step 4 with the checksum, and its write makes the file that of `patchFile`. -/
theorem patchRunPatchesTheFile : Obligations.PatchRunPatchesTheFile := by
  intro s start rest g hp hr h
  obtain ⟨hl, rfl⟩ := patchFile_eq_some h
  rw [payload_storeChecksum]
  exact comesToField_writes (patch_comesToField hp hl hr nofun nofun nofun) hl nofun

/-! ## The failures of a patch -/

/-- The host's procedure comes to IoError with the file `f`, and the host goes on with `rest` (R121). -/
def failsWith (s : State) (rest : List HostAction) (f : ProfileFile) : Prop :=
  ∃ t, reaches s t ∧ t.plan = rest ∧ t.outcome = some .ioError ∧ t.file = f

/-- A procedure that ends with IoError at some step fails with the file it has there. -/
theorem failsWith_of_reaches {s u : State} {rest : List HostAction} {f : ProfileFile} (hu : reaches s u) (hf : u.file = f)
    (h : step u = finishWith .ioError rest u) : failsWith s rest f :=
  ⟨_, reaches_trans hu (reaches_step h (reaches_refl _)), rfl, rfl, hf⟩

/-- Settles O56: the run comes to the step that fails, which ends it with the file as it stands there. -/
theorem failedPatchLeavesAnImage : Obligations.FailedPatchLeavesAnImage := by
  intro s start p rest g hp hr h
  obtain ⟨hl, rfl⟩ := patchFile_eq_some h
  cases p with
  | openFile => exact failsWith_of_reaches (reaches_refl s) rfl ((step_patch hp).trans (if_pos (.inr rfl)))
  | writeSelector =>
    have opened := reaches_step (step_patch_opens hp hl nofun) (reaches_refl _)
    exact failsWith_of_reaches opened rfl ((step_patchSelector rfl).trans (if_pos rfl))
  | readPayload =>
    exact failsWith_of_reaches (patch_reaches_payload hp hl nofun nofun) rfl ((step_patchPayload rfl).trans (if_pos rfl))
  | writeField =>
    obtain ⟨u, hu, hup, -, -, -, -, huf⟩ := patch_comesToField hp hl (fun e => hr e (.inl rfl)) nofun nofun nofun
    exact failsWith_of_reaches hu huf ((step_patchField hup).trans (if_pos rfl))
  | closeFile =>
    have atField := patch_comesToField hp hl (fun e => hr e (.inr rfl)) nofun nofun nofun
    obtain ⟨t, ht, htp, htf, hto, -⟩ := comesToField_writes atField hl nofun
    exact ⟨t, ht, htp, hto, htf⟩

end Sys2Proof.Machine
end

section
/-! SUPPORT. Proofs of the statements on 60_exceptions.md: the faults, all of them and no others; programs that never fault; the host's
failures, which are no faults of the block; and the loss of power. -/

namespace Sys2Proof.Machine

/-! ## The faults of a command -/

/-- A reserved word after the first reset raises ReservedOp (R132). -/
theorem exec_reserved {s : State} (w : CmdWord) (h : s.resetSeen = true) :
    exec (.reserved w) s = .fault (.reservedOp w) := if_pos h

/-- Settles O18: the row of the opcode map, and the reserved command's own lemma. -/
theorem reservedStopsWithItsWord : Obligations.ReservedStopsWithItsWord :=
  ⟨fun _ => decode_of_row_reserved, fun _ w => exec_reserved w⟩

/-- Settles O19: every command asks first whether the reset was seen. -/
theorem commandsBeforeResetFault : Obligations.CommandsBeforeResetFault := fun _ i => exec_unset i

/-- Only a word with op 0b11 decodes to a reserved command, which keeps it (R61, R64). -/
theorem decode_eq_reserved {w v : CmdWord} (h : decode w = .reserved v) : w &&& opMask = 0x300 := by
  rcases opRow_cases w with hw | hw | hw | hw
  · cases (decode_of_row_nop hw).symm.trans h
  · cases (decode_of_row_byte hw).symm.trans h
  · cases (decode_of_row_clear hw).symm.trans h
  · exact hw

/-- A word with another op than 0b11 completes after the first reset (R89 to R91). -/
theorem exec_decode_completes {s : State} {w : CmdWord} (hr : s.resetSeen = true) (hw : w &&& opMask ≠ 0x300) :
    ∃ t, exec (decode w) s = .next t := by
  cases h : exec (decode w) s with
  | next t => exact ⟨t, rfl⟩
  | fault r =>
    rcases exec_fault_cases h with ⟨hr', -⟩ | ⟨-, v, hv, -⟩
    · simp [hr] at hr'
    · exact absurd (decode_eq_reserved hv) hw
  | refused r => exact absurd h (exec_not_refused _ _ _)

/-! ## The faults of a step -/

/-- The outcome is a fault exactly where `P` holds of its reason, and never a refusal. -/
def stopsExactlyOn (P : Fault → Prop) (o : Host.Outcome State Fault Refusal) : Prop :=
  (∀ r, o = .fault r ↔ P r) ∧ ∀ r, o ≠ .refused r

theorem stopsExactlyOn_next {P : Fault → Prop} (t : State) (h : ∀ r, ¬ P r) : stopsExactlyOn P (.next t) :=
  ⟨fun r => ⟨nofun, fun hr => absurd hr (h r)⟩, nofun⟩

theorem stopsExactlyOn_fault {P : Fault → Prop} (f : Fault) (h : ∀ r, P r ↔ r = f) : stopsExactlyOn P (.fault f) :=
  ⟨fun r => by rw [h, Host.Outcome.fault.injEq, eq_comm], nofun⟩

theorem stopsExactlyOn_andThen {P : Fault → Prop} {o : Host.Outcome State Fault Refusal} (f : State → State)
    (h : stopsExactlyOn P o) : stopsExactlyOn P (andThen o f) :=
  ⟨fun r => andThen_eq_fault.trans (h.1 r), fun r => mt andThen_eq_refused.1 (h.2 r)⟩

/-- The faults the spec lists for the action `a`: NotReset for an offered command and for a sample before the first reset, and
ReservedOp for a reserved word offered to an idle block after it (R131, R132, R135). -/
def listedFault (s : State) (a : HostAction) (r : Fault) : Prop :=
  (s.resetSeen = false ∧ ∃ w, offeredWord a = some w ∧ r = .notReset (.command w)) ∨
  (s.resetSeen = false ∧ samplesPort a = true ∧ r = .notReset .sample) ∨
  (s.resetSeen = true ∧ s.busy = false ∧ ∃ w, offeredWord a = some w ∧ w &&& 0x300 = 0x300 ∧ r = .reservedOp w)

section Listed
variable {s : State} {a : HostAction}

/-- Nothing is listed for an action that neither offers a command nor samples. -/
theorem not_listedFault_of_quiet (ho : offeredWord a = none) (hs : samplesPort a = false) (r : Fault) :
    ¬ listedFault s a r := by
  simp [listedFault, ho, hs]

/-- An offer to a block that is busy after the first reset is not accepted, and nothing is listed for it (R155). -/
theorem not_listedFault_of_held (hs : samplesPort a = false) (hb : s.busy = true) (hr : s.resetSeen = true) (r : Fault) :
    ¬ listedFault s a r := by
  simp [listedFault, hs, hb, hr]

/-- A command offered where it counts as accepted stops as listed: NotReset before the first reset, ReservedOp after it. -/
theorem exec_offered_stops {w : CmdWord} (ho : offeredWord a = some w) (hs : samplesPort a = false)
    (hacc : s.busy = false ∨ s.resetSeen = false) :
    stopsExactlyOn (listedFault s a) (exec (decode w) (s.drivePins false true w)) := by
  cases hr : s.resetSeen with
  | false =>
    rw [exec_unset (s := s.drivePins false true w) (decode w) hr]
    exact stopsExactlyOn_fault _ fun r => by simp [listedFault, hr, ho, hs]
  | true =>
    have hb : s.busy = false := hacc.resolve_right (by simp [hr])
    by_cases hw : w &&& 0x300#10 = 0x300#10
    · rw [decode_of_row_reserved hw, exec_reserved (s := s.drivePins false true w) w hr]
      exact stopsExactlyOn_fault _ fun r => by simp [listedFault, hr, hb, ho, hw]
    · obtain ⟨t, ht⟩ := exec_decode_completes (s := s.drivePins false true w) hr hw
      rw [ht]
      exact stopsExactlyOn_next t fun r => by simp [listedFault, hr, ho, hw]

/-- An issued command stops as listed, and is held by a busy block (R131, R132, R155). -/
theorem hostIssue_stops (w : CmdWord) (rest : List HostAction) :
    stopsExactlyOn (listedFault s (.issue w)) (hostIssue w rest s) := by
  by_cases hacc : s.busy = false ∨ s.resetSeen = false
  · rw [hostIssue_accepted w rest hacc]
    exact stopsExactlyOn_andThen _ (exec_offered_stops rfl rfl hacc)
  · obtain ⟨hb, hr⟩ : s.busy = true ∧ s.resetSeen = true := by simpa using hacc
    rw [hostIssue_held w rest hb hr]
    exact stopsExactlyOn_next _ (not_listedFault_of_held rfl hb hr)

/-- A drive of the ports stops as listed where it offers a command without `rst`, and nowhere else (R135). -/
theorem hostDrive_stops (r v : Bool) (w : CmdWord) (rest : List HostAction) :
    stopsExactlyOn (listedFault s (.drive r v w)) (hostDrive r v w rest s) := by
  rcases hostDrive_cases r v w rest s with ⟨rfl, e⟩ | ⟨rfl, rfl, hacc, e⟩ | ⟨rfl, hheld, e⟩ <;> rw [e]
  · exact stopsExactlyOn_next _ (not_listedFault_of_quiet rfl rfl)
  · exact stopsExactlyOn_andThen _ (exec_offered_stops rfl rfl hacc)
  · cases v with
    | false => exact stopsExactlyOn_next _ (not_listedFault_of_quiet rfl rfl)
    | true =>
      obtain ⟨hb, hr⟩ := hheld rfl
      exact stopsExactlyOn_next _ (not_listedFault_of_held rfl hb hr)

/-- What samples `crc_out` stops before the first reset (R131), and completes where its effect does. -/
theorem whenSampled_stops {effect : Host.Outcome State Fault Refusal} (ho : offeredWord a = none)
    (hs : samplesPort a = true) (he : ∃ t, effect = .next t) :
    stopsExactlyOn (listedFault s a) (whenSampled s effect) := by
  unfold whenSampled
  obtain ⟨t, rfl⟩ := he
  cases hr : s.resetSeen with
  | false => exact stopsExactlyOn_fault _ fun r => by simp [listedFault, hr, ho, hs]
  | true => exact stopsExactlyOn_next t fun r => by simp [listedFault, hr, ho]

end Listed

/-- A SAMPLE stops as listed: before the first reset (R131). -/
theorem sampleThen_stops {s : State} {a : HostAction} (next : CrcWord → List HostAction) (ho : offeredWord a = none)
    (hs : samplesPort a = true) : stopsExactlyOn (listedFault s a) (sampleThen next s) := by
  refine whenSampled_stops ho hs ?_
  split
  · exact ⟨_, rfl⟩
  · exact ⟨_, idleEdge_eq s⟩

/-- The step of each action stops exactly as listed for it. -/
theorem step_stops {s : State} {a : HostAction} {rest : List HostAction} (hp : s.plan = a :: rest) :
    stopsExactlyOn (listedFault s a) (step s) := by
  cases a with
  | issue w => rw [step_issue hp]; exact hostIssue_stops w rest
  | drive r v w => rw [step_drive hp]; exact hostDrive_stops r v w rest
  | wait =>
    rw [step_wait hp, hostWait, idleEdge_eq]
    split <;> exact stopsExactlyOn_next _ (not_listedFault_of_quiet rfl rfl)
  | sample => rw [step_sample hp]; exact sampleThen_stops _ rfl rfl
  | readRaw => rw [step_readRaw hp]; exact whenSampled_stops rfl rfl ⟨_, rfl⟩
  | reset => rw [step_reset_next hp]; exact stopsExactlyOn_next _ (not_listedFault_of_quiet rfl rfl)
  | losePower => rw [step_losePower hp]; exact stopsExactlyOn_next _ (not_listedFault_of_quiet rfl rfl)
  | patchSample failure => rw [step_patchSample hp]; exact sampleThen_stops _ rfl rfl
  | _ =>
    obtain ⟨t, ht, -⟩ := fileStep_next hp rfl
    rw [ht]
    exact stopsExactlyOn_next t (not_listedFault_of_quiet rfl rfl)

/-- Settles O36: with no action left a step is an idle edge, and each action stops exactly as listed. -/
theorem faultsExactlyAsListed : Obligations.FaultsExactlyAsListed := by
  intro s r
  cases hp : s.plan with
  | nil => simp [step_nil hp, idleEdge_eq]
  | cons a rest =>
    refine ((step_stops hp).1 r).trans ⟨fun h => ⟨a, rest, rfl, h⟩, ?_⟩
    rintro ⟨_, _, ⟨⟩, h⟩
    exact h

/-- Settles O37: the same split of a step, for its refusals. -/
theorem noStepIsRefused : Obligations.NoStepIsRefused := by
  intro s r
  cases hp : s.plan with
  | nil => simp [step_nil hp, idleEdge_eq]
  | cons a rest => exact (step_stops hp).2 r

/-! ## Programs that never fault -/

/-- An action that loses no power and offers no reserved word. -/
def harmless (a : HostAction) : Prop :=
  a ≠ .losePower ∧ ∀ w, offeredWord a = some w → w &&& 0x300 ≠ 0x300

/-- What the patch procedure puts before the block is harmless: CLEAR and BYTE are in other rows than the reserved words (R61). -/
theorem harmless_of_putByPatch {b : HostAction} (h : putByPatch b) : harmless b := by
  obtain ⟨hpower, hword⟩ := h
  refine ⟨hpower, fun w hw => ?_⟩
  have row : ∀ {i : Instr}, i.wellFormed = true → opMatch i ≠ 0x300 → encode i &&& 0x300 ≠ 0x300 := fun hi hne =>
    (encode_and_opMask hi).trans_ne hne
  rcases hword w hw with rfl | ⟨x, rfl⟩
  · exact row (i := .clear) rfl (by decide)
  · exact row (i := .byte x) rfl (by decide : (0x100 : CmdWord) ≠ 0x300)

/-- A step that loses no power keeps that the first reset was seen (R151). -/
theorem step_keeps_resetSeen {s t : State} (h : step s = .next t) (hr : s.resetSeen = true)
    (hp : .losePower ∉ s.plan) : t.resetSeen = true := by
  by_contra hne
  obtain ⟨a, rest, ha, ⟨-, ht⟩ | ⟨rfl, -⟩⟩ := onlyResetEndsTheUnresetState s t h (by simpa [hr] using hne)
  · exact hne ht
  · simp [ha] at hp

/-- A step leaves a harmless program harmless (R116). -/
theorem step_keeps_harmless {s t : State} (h : step s = .next t) (hp : ∀ a ∈ s.plan, harmless a) :
    ∀ a ∈ t.plan, harmless a := by
  cases hplan : s.plan with
  | nil =>
    rw [step_nil hplan, idleEdge_eq] at h
    obtain ⟨-, -, -, -, e, -⟩ := tick_frame (s.drivePins false false s.cmdWord)
    cases h
    rwa [e]
  | cons a rest =>
    rcases step_goesOn hplan h with e | ⟨pre, e, hpre⟩
    · rwa [e]
    · rw [hplan, List.forall_mem_cons] at hp
      rw [e, List.forall_mem_append]
      exact ⟨fun b hb => harmless_of_putByPatch (hpre b hb), hp.2⟩

/-- After the first reset a step of a harmless program completes: none of the listed faults applies to it (R131, R132). -/
theorem step_completes {s : State} (hr : s.resetSeen = true) (hp : ∀ a ∈ s.plan, harmless a) : ∃ t, step s = .next t := by
  cases h : step s with
  | next t => exact ⟨t, rfl⟩
  | fault r =>
    obtain ⟨a, rest, ha, ⟨hr', -⟩ | ⟨hr', -⟩ | ⟨-, -, w, hw, hres, -⟩⟩ := (faultsExactlyAsListed s r).1 h
    · simp [hr] at hr'
    · simp [hr] at hr'
    · obtain ⟨-, hword⟩ := hp a (by simp [ha])
      exact absurd hres (hword w hw)
  | refused r => exact absurd h (noStepIsRefused s r)

/-- After the first reset a harmless program runs for any number of steps. -/
theorem harmless_runs : ∀ (k : Nat) {s : State}, s.resetSeen = true → (∀ a ∈ s.plan, harmless a) → ∃ t, reachesIn k s t
  | 0, s, _, _ => ⟨s, reachesIn_zero s⟩
  | k + 1, s, hr, hp => by
    obtain ⟨u, hu⟩ := step_completes hr hp
    obtain ⟨t, ht⟩ := harmless_runs k (step_keeps_resetSeen hu hr fun h => (hp _ h).1 rfl) (step_keeps_harmless hu hp)
    exact ⟨t, reachesIn_succ hu ht⟩

/-- Settles O38: a harmless program runs on after the first reset, and RESET brings every state there in one step. -/
theorem programsWithoutReservedWordsNeverFault : Obligations.ProgramsWithoutReservedWordsNeverFault := by
  intro s k hstart (hp : ∀ a ∈ s.plan, harmless a)
  rcases hstart with hr | hhead
  · exact harmless_runs k hr hp
  · obtain ⟨rest, hplan⟩ := List.head?_eq_some_iff.1 hhead
    cases k with
    | zero => exact ⟨s, reachesIn_zero s⟩
    | succ k =>
      have reset := step_reset_next hplan
      obtain ⟨t, ht⟩ := harmless_runs k rfl (step_keeps_harmless reset hp)
      exact ⟨t, reachesIn_succ reset ht⟩

/-! ## The host's failures, and the loss of power -/

/-- Settles O41: the block and its ports are part of what a step on the file or the procedure keeps. -/
theorem fileStepsLeaveTheBlock : Obligations.FileStepsLeaveTheBlock := by
  intro s a rest hp ha
  obtain ⟨t, ht, hblock, hsamples, hraw, -⟩ := fileStep_next hp ha
  exact ⟨t, ht, hblock, hsamples, hraw⟩

/-- Settles O28: the loss of power writes the block's registers only. -/
theorem powerLossUnresets : Obligations.PowerLossUnresets := fun _ _ hp =>
  ⟨_, step_losePower hp, rfl, rfl, rfl, rfl, rfl, rfl⟩

end Sys2Proof.Machine
end

section
/-! SUPPORT. Proofs of the statements on 70_reset_and_hazards.md: the hold of a command and its end, the order of commands, what free
values can reach, the reset edge, and raw reads. -/

namespace Sys2Proof.Machine

/-! ## A held command is accepted -/

/-- Settles O24: the invariant bounds the edges left, the hold runs for as many, and the idle block then takes the command. -/
theorem holdIsLifted : Obligations.HoldIsLifted := by
  intro s w rest ⟨hseq, _⟩ hr hb hp
  rcases hseq hr with ⟨hidle, -⟩ | ⟨-, n, hn, hpos, hle⟩
  · simp [hb] at hidle
  · obtain ⟨m, rfl⟩ : ∃ m, n = m + 1 := ⟨n - 1, by omega⟩
    obtain ⟨-, hend⟩ := hold_run m (holds_issue hp) hr hb hn
    exact ⟨m + 1, _, hle, hend, rfl, step_issue_idle hp rfl⟩

/-! ## Commands in order -/

/-- Settles O34: each BYTE is carried through, the second from where the first left `crc` and the program. -/
theorem commandsTakeEffectInOrder : Obligations.CommandsTakeEffectInOrder := by
  intro s b1 b2 rest hr hp
  have word : ∀ b, decode (encode (.byte b)) = .byte b := fun b => decode_encode (i := .byte b) rfl
  have both : carriedTo s rest (byteUpdate (byteUpdate s.crc b1) b2) :=
    carriedTo_trans (carriedTo_byte hp hr (word b1)) fun u hup hur huc => huc ▸ carriedTo_byte hup hur (word b2)
  obtain ⟨t, ht, htp, -, htc, hts⟩ := both
  exact ⟨t, ht, htp, htc, hts⟩

/-! ## Only raw reads draw -/

/-- The state with another count of the free values taken. -/
def State.setDraws (s : State) (d : Nat) : State := { s with draws := d }

/-- From `s`, whatever the count of the free values taken, `f` does the same and leaves that count as it is. -/
def blindToDraws (f : State → Host.Outcome State Fault Refusal) (s : State) : Prop :=
  ∀ d, f (s.setDraws d) = andThen (f s) (·.setDraws d)

section Blind
variable {s : State} {f g : State → Host.Outcome State Fault Refusal}

/-- Blindness from `s` is a matter of what the operation does on the states that differ from `s` in the count alone. -/
theorem blindToDraws_congr (h : ∀ d, g (s.setDraws d) = f (s.setDraws d)) (hf : blindToDraws f s) : blindToDraws g s :=
  fun d => by
    have hs : g s = f s := h s.draws
    rw [h, hs, hf]

theorem blindToDraws_ite {c : Prop} [Decidable c] (hf : blindToDraws f s) (hg : blindToDraws g s) :
    blindToDraws (fun u => if c then f u else g u) s := by
  by_cases hc : c
  · exact blindToDraws_congr (fun _ => if_pos hc) hf
  · exact blindToDraws_congr (fun _ => if_neg hc) hg

theorem blindToDraws_andThen {k : State → State} (hf : blindToDraws f s) (hk : ∀ u d, k (u.setDraws d) = (k u).setDraws d) :
    blindToDraws (fun u => andThen (f u) k) s := fun d => by
  show andThen (f (s.setDraws d)) k = andThen (andThen (f s) k) (·.setDraws d)
  rw [hf d]
  cases f s with
  | next u => exact congrArg Host.Outcome.next (hk u d)
  | fault | refused => rfl

/-- A command takes no free value (R89 to R91, R132). -/
theorem exec_blindToDraws (i : Instr) (hr : s.resetSeen = true) : blindToDraws (exec i) s := fun d => by
  have hd : (s.setDraws d).resetSeen = true := hr
  cases i with
  | nop => rw [exec_nop hr, exec_nop hd]; rfl
  | byte b => rw [exec_byte b hr, exec_byte b hd]; rfl
  | clear => rw [exec_clear hr, exec_clear hd]; rfl
  | reserved w => rw [exec_reserved w hr, exec_reserved w hd]; rfl

/-- A cycle after the first reset takes no free value (R27). -/
theorem tick_setDraws (hr : s.resetSeen = true) (d : Nat) : tick (s.setDraws d) = (tick s).setDraws d := by
  unfold tick
  rw [if_pos hr, if_pos (show (s.setDraws d).resetSeen = true from hr)]
  cases hb : s.busy with
  | false => simp [State.setDraws, hb]
  | true => rcases hp : s.phase with _ | _ | _ | n <;> simp [State.setDraws, State.setSequencer, hb, hp]

/-- A rising edge after the first reset takes no free value: a reset, an accepted command or a cycle (R135). -/
theorem clockEdge_blindToDraws (hr : s.resetSeen = true) : blindToDraws clockEdge s := by
  have reset : blindToDraws (fun u => .next (applyReset u)) s := fun _ => rfl
  have cycle : blindToDraws (fun u => .next (tick u)) s := fun d => congrArg Host.Outcome.next (tick_setDraws hr d)
  exact blindToDraws_ite (c := s.rst = true) reset
    (blindToDraws_ite (c := accepts s = true) (exec_blindToDraws (decode s.cmdWord) hr) cycle)

/-- The ports driven for one edge, and a change of state after it that depends on the count as little as the edge does. -/
theorem edge_blindToDraws {k : State → State} (r v : Bool) (w : CmdWord) (hr : s.resetSeen = true)
    (hk : ∀ u d, k (u.setDraws d) = (k u).setDraws d) :
    blindToDraws (fun u => andThen (clockEdge (u.drivePins r v w)) k) s :=
  blindToDraws_andThen (f := fun u => clockEdge (u.drivePins r v w)) (clockEdge_blindToDraws (s := s.drivePins r v w) hr) hk

theorem hostIssue_blindToDraws (w : CmdWord) (rest : List HostAction) (hr : s.resetSeen = true) :
    blindToDraws (hostIssue w rest) s :=
  edge_blindToDraws (k := fun t => if accepts (s.drivePins false true w) then t.setPlan rest else t) false true w hr
    fun u d => by split <;> rfl

theorem hostDrive_blindToDraws (r v : Bool) (w : CmdWord) (rest : List HostAction) (hr : s.resetSeen = true) :
    blindToDraws (hostDrive r v w rest) s :=
  edge_blindToDraws r v w hr fun _ _ => rfl

theorem idleEdge_blindToDraws (hr : s.resetSeen = true) : blindToDraws idleEdge s :=
  clockEdge_blindToDraws (s := s.drivePins false false s.cmdWord) hr

theorem hostWait_blindToDraws (rest : List HostAction) (hr : s.resetSeen = true) : blindToDraws (hostWait rest) s :=
  blindToDraws_ite (c := cmdReady s = true) (f := fun u => .next (u.setPlan rest)) (fun _ => rfl) (idleEdge_blindToDraws hr)

/-- A SAMPLE of an idle block after the first reset reads `crc` (R21, R66). -/
theorem sampleThen_idle (next : CrcWord → List HostAction) (hr : s.resetSeen = true) (hb : s.busy = false) :
    sampleThen next s = .next ((s.recordSample s.crc).setPlan (next s.crc)) := by
  rcases sampleThen_cases next s with ⟨h, -⟩ | ⟨-, h, -⟩ | ⟨-, -, e⟩
  · simp [hr] at h
  · simp [hb] at h
  · exact e

/-- A SAMPLE takes no free value: it waits while the block is busy, and then reads `crc` (R66). -/
theorem sampleThen_blindToDraws (next : CrcWord → List HostAction) (hr : s.resetSeen = true) :
    blindToDraws (sampleThen next) s := by
  cases hb : s.busy with
  | false =>
    have sampled : blindToDraws (fun u => .next ((u.recordSample s.crc).setPlan (next s.crc))) s := fun _ => rfl
    exact blindToDraws_congr (fun d => sampleThen_idle (s := s.setDraws d) next hr hb) sampled
  | true =>
    refine blindToDraws_congr (fun d => ?_) (idleEdge_blindToDraws hr)
    rw [idleEdge_eq, sampleThen_held (s := s.setDraws d) hb hr]

theorem writeThen_blindToDraws {a n v : Nat} {rest : List HostAction} (hf : ∀ p, blindToDraws f (s.setFile p)) :
    blindToDraws (writeThen a n v rest f) s := fun d => by
  have hwrite : fileWrite (s.setDraws d).file a n v = fileWrite s.file a n v := rfl
  unfold writeThen
  rw [hwrite]
  cases fileWrite s.file a n v with
  | none => rfl
  | some p => exact hf p d

/-- A host step on the file or the procedure takes no free value (R110, R116, R121). -/
theorem fileStep_blindToDraws {a : HostAction} {rest : List HostAction} (hp : s.plan = a :: rest) (ha : fileOnly a = true) :
    blindToDraws step s := by
  have finish : ∀ o (u : State), blindToDraws (finishWith o rest) u := fun _ _ _ => rfl
  cases a with
  | memWrite a n v =>
    exact blindToDraws_congr (fun _ => step_memWrite hp) (writeThen_blindToDraws fun _ _ => rfl)
  | usageError => exact blindToDraws_congr (fun _ => step_usageError hp) (finish _ _)
  | patch start failure =>
    exact blindToDraws_congr (fun _ => step_patch hp)
      (blindToDraws_ite (c := s.file.length < minFileLength ∨ failure = some .openFile)
        (g := fun u => .next ((u.setOutcome none).setPlan _)) (finish _ _) fun _ => rfl)
  | patchSelector start failure =>
    exact blindToDraws_congr (fun _ => step_patchSelector hp)
      (blindToDraws_ite (finish _ _) (writeThen_blindToDraws fun _ _ => rfl))
  | patchPayload start failure =>
    exact blindToDraws_congr (fun _ => step_patchPayload hp) (blindToDraws_ite (finish _ _) fun _ => rfl)
  | patchField c failure =>
    exact blindToDraws_congr (fun _ => step_patchField hp)
      (blindToDraws_ite (finish _ _) (writeThen_blindToDraws fun _ => finish _ _))
  | _ => cases ha

/-- A step after the first reset that is neither a raw read nor a loss of power takes no free value (R156). -/
theorem step_blindToDraws (hr : s.resetSeen = true) (hread : s.plan.head? ≠ some .readRaw)
    (hpower : s.plan.head? ≠ some .losePower) : blindToDraws step s := by
  cases hp : s.plan with
  | nil => exact blindToDraws_congr (fun _ => step_nil hp) (idleEdge_blindToDraws hr)
  | cons a rest =>
    rw [hp, List.head?_cons] at hread hpower
    cases a with
    | issue w => exact blindToDraws_congr (fun _ => step_issue hp) (hostIssue_blindToDraws w rest hr)
    | drive r v w => exact blindToDraws_congr (fun _ => step_drive hp) (hostDrive_blindToDraws r v w rest hr)
    | wait => exact blindToDraws_congr (fun _ => step_wait hp) (hostWait_blindToDraws rest hr)
    | sample => exact blindToDraws_congr (fun _ => step_sample hp) (sampleThen_blindToDraws _ hr)
    | patchSample failure => exact blindToDraws_congr (fun _ => step_patchSample hp) (sampleThen_blindToDraws _ hr)
    | reset => exact blindToDraws_congr (fun _ => step_reset hp) (hostDrive_blindToDraws true false s.cmdWord rest hr)
    | readRaw => exact absurd rfl hread
    | losePower => exact absurd rfl hpower
    | _ => exact fileStep_blindToDraws hp rfl

end Blind

/-- Settles O43: the step is blind to the count, and with the count that is there this says that the count stays. -/
theorem onlyRawReadsDraw : Obligations.OnlyRawReadsDraw := by
  intro s t d hr hread hpower h
  have any : ∀ d, step (s.setDraws d) = .next (t.setDraws d) := fun d => by
    rw [step_blindToDraws hr hread hpower d, h, andThen_next]
  have same : t = t.setDraws s.draws := Host.Outcome.next.inj (h.symm.trans (any s.draws))
  have kept : t.draws = (t.setDraws s.draws).draws := congrArg State.draws same
  exact ⟨kept, any d⟩

/-! ## A command offered to a busy block -/

/-- A command driven for one edge only at a busy block is not accepted: a cycle passes, and the host goes on (R155). -/
theorem step_drive_busy {s : State} {w : CmdWord} {rest : List HostAction} (hp : s.plan = .drive false true w :: rest)
    (hr : s.resetSeen = true) (hb : s.busy = true) :
    step s = .next ((tick (s.drivePins false true w)).setPlan rest) := by
  obtain ⟨-, he⟩ := clockEdge_holds w hb hr
  rw [step_drive hp, hostDrive, he, andThen_next]

/-- Settles O23: either way the edge is a cycle, which leaves `crc`, the host and the ports; issued, it leaves the program too. -/
theorem busyCommandIsNotAccepted : Obligations.BusyCommandIsNotAccepted := by
  intro s w rest hr hb
  have hcrc : (tick (s.drivePins false true w)).crc = s.crc := tick_crc hr
  have hhost : sameHost s (tick (s.drivePins false true w)) := tick_sameHost (s.drivePins false true w)
  obtain ⟨-, -, hvalid, hword, hplan, -⟩ := tick_frame (s.drivePins false true w)
  refine ⟨fun hp => ⟨_, ?_, hplan, hcrc, hvalid, hword, hhost⟩, fun hp => ⟨_, step_drive_busy hp hr hb, rfl, hcrc, hhost⟩⟩
  rw [step_issue hp, hostIssue_held w rest hb hr]

/-! ## The reset edge -/

/-- Settles O26: both actions are an edge with `rst` = 1, which resets the block whatever is offered. -/
theorem resetEdgeWins : Obligations.ResetEdgeWins := fun s rest =>
  ⟨step_reset_next, fun v w hp => by rw [step_drive hp, hostDrive, clockEdge_rst]; rfl⟩

/-! ## A raw read -/

/-- A raw read of a busy block after the first reset records the next free value and counts it (R156). -/
theorem step_readRaw_busy {s : State} {rest : List HostAction} (hp : s.plan = .readRaw :: rest) (hr : s.resetSeen = true)
    (hb : s.busy = true) :
    step s = .next ((s.recordRawRead (Config.busyOutput s.draws)).advanceDraws.setPlan rest) := by
  rw [step_readRaw hp, hostReadRaw, whenSampled, if_pos hr, crcOut, cmdReady, hb]
  rfl

/-- A raw read of an idle block after the first reset records `crc` (R21, R156). -/
theorem step_readRaw_idle {s : State} {rest : List HostAction} (hp : s.plan = .readRaw :: rest) (hr : s.resetSeen = true)
    (hb : s.busy = false) : step s = .next ((s.recordRawRead s.crc).setPlan rest) := by
  rw [step_readRaw hp, hostReadRaw, whenSampled, if_pos hr, crcOut_of_idle hb, cmdReady, hb]
  rfl

/-- Settles O32: `busy` decides what the port shows, and only a busy block's value is a draw. -/
theorem rawReadWhileBusyIsFree : Obligations.RawReadWhileBusyIsFree := fun _ _ hr hp =>
  ⟨step_readRaw_busy hp hr, step_readRaw_idle hp hr⟩

end Sys2Proof.Machine
end

section
/-! SUPPORT. Proof of the statement on the encoding vectors of 95_test_vectors.md section 2.7. -/

namespace Sys2Proof.Machine

/-- Settles O5: each word is placed in its row of the opcode map, and the lemma of that row decodes it. -/
theorem specWordsDecodeAsListed : Obligations.SpecWordsDecodeAsListed :=
  ⟨decode_of_row_nop rfl, decode_of_row_nop rfl, decode_of_row_byte rfl, decode_of_row_byte rfl, decode_of_row_byte rfl,
   decode_of_row_clear rfl, decode_of_row_clear rfl, decode_of_row_reserved rfl, decode_of_row_reserved rfl⟩

end Sys2Proof.Machine
end
